-- ==== Sys2Proof/Word.lean ====
section
/-! DEFINITION. The two word sizes of cryptlib CORE (rules R7, R80): the 32-bit word of the ports and of the hash, and the byte. -/

namespace Sys2Proof

/-- A 32-bit value: a command word, a response word, a hash word, a pointer or a length (rules R7, R80, R91). -/
abbrev Word := BitVec 32

/-- An 8-bit value: a byte of memory or of the block, or a header field (rules R7, R81). -/
abbrev Byte := BitVec 8

end Sys2Proof
end

