-- ==== Sys2Proof/Machine/Context.lean ====
section
/-! DEFINITION. The hash context, the source's HashState, as plain data (rules R20 to R24). -/

namespace Sys2Proof.Machine

/-- The five running hash words `H[0]` to `H[4]` (rule R21). -/
structure HashWords where
  h0 : Word
  h1 : Word
  h2 : Word
  h3 : Word
  h4 : Word
  deriving DecidableEq, Repr, Inhabited

/-- The 64 bytes of the accumulation block (rule R23). -/
abbrev Block := Vector Byte 64

/-- The type `Ctx` of rule R20. The fill index runs over 0 to 63 between bytes (rule R24), so its type is `Fin 64`. -/
structure Ctx where
  /-- `H[0..4]`, rule R21. -/
  h : HashWords
  /-- `LEN_LO`, the low half of the bit counter, rule R22. -/
  lenLo : Word
  /-- `LEN_HI`, the high half of the bit counter, rule R22. -/
  lenHi : Word
  /-- `BLK[0..63]`, rule R23. -/
  blk : Block
  /-- `IDX`, rule R24. -/
  idx : Fin 64
  deriving DecidableEq, Repr, Inhabited

end Sys2Proof.Machine
end

