-- ==== Sys2Proof/Machine/Bits.lean ====
section
/-! DEFINITION. The bit and byte-order helpers of rules R7 and R8. -/

namespace Sys2Proof.Machine

/-- `be32(b0, b1, b2, b3)`: four bytes as a word, most significant byte first (rule R7). -/
def be32 (b0 b1 b2 b3 : Byte) : Word :=
  BitVec.ofNat 32 (b0.toNat * 2 ^ 24 + b1.toNat * 2 ^ 16 + b2.toNat * 2 ^ 8 + b3.toNat)

/-- `bytes_be32(w)`, the inverse of `be32` (rule R7). -/
def bytesBe32 (w : Word) : List Byte :=
  [BitVec.ofNat 8 (w.toNat / 2 ^ 24), BitVec.ofNat 8 (w.toNat / 2 ^ 16), BitVec.ofNat 8 (w.toNat / 2 ^ 8), BitVec.ofNat 8 w.toNat]

/-- `rotl_k(x)` for `0 < k < 32` (rule R8). -/
def rotl (k : Nat) (x : Word) : Word := (x <<< k) ||| (x >>> (32 - k))

/-- `LEN = LEN_HI · 2^32 + LEN_LO`, the bits absorbed so far (rule R22). -/
def bitLength (c : Ctx) : Nat := c.lenHi.toNat * 2 ^ 32 + c.lenLo.toNat

end Sys2Proof.Machine
end

