-- ==== Sys2Proof/Config.lean ====
section
/-! DEFINITION. What is fixed for the hardware (tables T-R5 and T-R6 of rules R5 and R6) and the one free value of the model. The OPEN
parameters `P_READABLE` and `P_WRITABLE` are plain data of `State` (log entry 3), so that a step can be evaluated under any of them. -/

namespace Sys2Proof

/-- `BLOCK_BYTES`, the size of a block and of an HMAC pad (table T-R5). -/
@[simp] abbrev Config.blockBytes : Nat := 64

/-- `DIGEST_BYTES` (table T-R5). -/
@[simp] abbrev Config.digestBytes : Nat := 20

/-- `TAG_BYTES` (table T-R5). -/
@[simp] abbrev Config.tagBytes : Nat := 10

/-- `WRAP_KEY_BYTES`, the key size at the TagCodec (table T-R5). -/
@[simp] abbrev Config.wrapKeyBytes : Nat := 16

/-- `MAX_KEY_BYTES`, the largest key HmacEngine accepts (table T-R5). -/
@[simp] abbrev Config.maxKeyBytes : Nat := 64

/-- `N_ROUNDS` (table T-R5). -/
@[simp] abbrev Config.rounds : Nat := 80

/-- `2^AW`, the number of locations of the data memory (table T-R6, rule R50). -/
@[simp] abbrev Config.addressSpace : Nat := 2 ^ 32

/-- `2^LEN_BITS`, the bound the bit counter must stay below (table T-R5, rule R135). -/
@[simp] abbrev Config.bitLimit : Nat := 2 ^ 64

/-- DESIGN CHOICE (log entry 2, safe): the free value of the model. It stands for whatever a hash context holds where the spec leaves it
unspecified: `H` and `BLK` after a successful SHA1_FINAL, every field after a platform reset (rules R27, R34, R230). It has no body.
It is applied to a counter of `State` and to the context before the event. -/
opaque Config.freeCtx : Nat → Machine.Ctx → Machine.Ctx

end Sys2Proof
end

