-- ==== Sys2Proof/Machine/State.lean ====
section
/-! DEFINITION. The state of the machine as plain data (rules R20 to R36, table T-R34), the state after reset, and the reasons a step
can stop. -/

namespace Sys2Proof.Machine

/-- The phase flag `PHASE` (rule R25): `IDLE = 0`, `ACTIVE = 1`. -/
inductive Phase where
  | idle
  | active
  deriving DecidableEq, Repr

/-- A run of addresses `base … base + size - 1`, part of a platform's address map (rule R52). -/
structure Region where
  base : Nat
  size : Nat
  deriving DecidableEq, Repr

/-- The OPEN parameters of rule R55 as plain data: each set of addresses is the union of a list of regions (log entry 3). -/
structure Platform where
  /-- `P_READABLE`. -/
  readable : List Region
  /-- `P_WRITABLE`. -/
  writable : List Region
  deriving DecidableEq, Repr

/-- `MEM` (rules R32, R50): address and byte pairs in the canonical form of `Memory.wf` (Machine/Ops.lean). -/
abbrev Memory := List Host.Cell

/-- Everything the spec gives the machine (table T-R34), with the OPEN parameters and the counter of the free value. -/
structure State where
  /-- `HS`, the one host-visible hash context (rule R26). -/
  hs : Ctx
  /-- `PHASE` (rule R25). -/
  phase : Phase
  /-- `CMDQ`, the command words supplied and not yet consumed, first word at the front (rule R31). -/
  cmdq : List Word
  /-- `RSPQ`, the response words produced so far, oldest first (rules R31, R89). -/
  rspq : List Word
  /-- `MEM`, the data memory (rule R32). -/
  mem : Memory
  /-- `P_READABLE` and `P_WRITABLE` (rule R55); no step changes them. -/
  platform : Platform
  /-- The model's own counter: how many free values have been drawn (log entry 2). -/
  freeCount : Nat
  deriving DecidableEq, Repr

/-- The reasons a step can stop with a fault. There are none: every failure of this hardware is a result and the next command runs
(rule R247 a), an incomplete command waits and is not faulted (rules R90, R247 b), and every command terminates (rule R251). The type is
therefore empty, and no claim can rest on a fault. Safe. -/
inductive Fault
  deriving DecidableEq, Repr

/-- The reasons a step can refuse an instruction. No word of CORE-CMD 1 lacks a meaning (rule R247 c). -/
inductive Refusal where
  /-- Raised only by an arm of `exec` whose instruction has no meaning yet; no arm is in that case. Safe: the machine stops. -/
  | notModelled (mnemonic : String)
  deriving DecidableEq, Repr

/-- DESIGN CHOICE (log entry 1, unsafe): the value of `HS` in `State.reset`. The spec leaves every field unspecified after reset
(table T-R34); the model takes zero. -/
def Ctx.zero : Ctx :=
  { h := { h0 := 0, h1 := 0, h2 := 0, h3 := 0, h4 := 0 }, lenLo := 0, lenHi := 0, blk := Vector.replicate 64 0, idx := 0 }

/-- Every address of the space readable and writable: the default of the OPEN parameters (rule R55, decision D9). -/
def Platform.all : Platform :=
  { readable := [{ base := 0, size := 2 ^ 32 }], writable := [{ base := 0, size := 2 ^ 32 }] }

/-- The machine right after reset (rules R34, R230, R231): `PHASE = IDLE`, both streams empty, memory with nothing listed (log entry 4),
all addresses admitted (log entry 3), and `HS` at the value of log entry 1. -/
def State.reset : State :=
  { hs := Ctx.zero, phase := .idle, cmdq := [], rspq := [], mem := [], platform := Platform.all, freeCount := 0 }

end Sys2Proof.Machine
end

