-- ==== Sys2Proof/Machine/Flags.lean ====
section
/-! DEFINITION. The one status flag `PHASE` (rule R25), the status codes (rule R200) and the response word that carries them (rule R89). -/

namespace Sys2Proof.Machine

/-- The status codes of table T-R200 (rule R200); codes 8 to 15 are never produced, so they have no name here. -/
inductive Status where
  | ok
  | capacityExceeded
  | verificationFailed
  | illegalCommand
  | sequenceError
  | keyTooLong
  | memFault
  | lengthOverflow
  deriving DecidableEq, Repr

/-- The numbers of table T-R200 (rule R200). -/
def statusCode : Status → Nat
  | .ok => 0
  | .capacityExceeded => 1
  | .verificationFailed => 2
  | .illegalCommand => 3
  | .sequenceError => 4
  | .keyTooLong => 5
  | .memFault => 6
  | .lengthOverflow => 7

/-- The response word (rule R89, table T-R89): `value` in bits 7:0, `status` in bits 11:8, zero above. -/
def responseWord (st : Status) (value : Byte) : Word :=
  BitVec.ofNat 32 (statusCode st * 2 ^ 8 + value.toNat)

/-- The `status` field of a response word, bits 11:8 (table T-R89). -/
def responseStatus (w : Word) : Nat := w.toNat / 2 ^ 8 % 2 ^ 4

/-- The `value` field of a response word, bits 7:0 (table T-R89). -/
def responseValue (w : Word) : Nat := w.toNat % 2 ^ 8

/-- The one bit that `PHASE` is (rule R25). -/
def phaseBit : Phase → BitVec 1
  | .idle => 0
  | .active => 1

/-- SHA1_UPDATE and SHA1_FINAL test this: `HS` holds a computation in progress (rule R25). -/
def State.isActive (s : State) : Bool := s.phase == .active

end Sys2Proof.Machine
end

