-- ==== Sys2Proof/Machine/Ops.lean ====
section
/-! DEFINITION. The named operations over memory, streams and registers: the data memory (rules R50 to R54, R60), the response that ends
a command (rule R9), and `State.raise`, the one way a command fails (rules R201, R209, R212, R213). -/

namespace Sys2Proof.Machine

/-- DESIGN CHOICE (log entry 4, unsafe for `State.reset` only): what an address that memory does not list reads as. The spec leaves the
launch memory to the host (rules R230, R231); its own programs start from memory that is zero except as stated. -/
def Memory.unlisted : Byte := 0

/-- The canonical form of memory: addresses strictly rising, inside the `2^32` locations of rule R50, and no entry equal to
`Memory.unlisted`. -/
def Memory.wf : Memory → Bool
  | [] => true
  | (a, b) :: rest =>
    decide (a < Config.addressSpace) && decide (b ≠ Memory.unlisted) && rest.all (fun c => decide (a < c.1)) && Memory.wf rest

/-- `MemRead(addr, 1)` (rules R9, R51, R60). -/
def Memory.read : Memory → Nat → Byte
  | [], _ => Memory.unlisted
  | (k, v) :: rest, a => if k = a then v else Memory.read rest a

/-- Put a byte at its place in a memory that does not list its address; the unlisted value is not put at all. -/
def Memory.insert : Memory → Nat → Byte → Memory
  | [], a, b => if b = Memory.unlisted then [] else [(a, b)]
  | (k, v) :: rest, a, b =>
    if a < k then (if b = Memory.unlisted then (k, v) :: rest else (a, b) :: (k, v) :: rest) else (k, v) :: Memory.insert rest a b

/-- `MemWrite(addr, 1, v)` (rules R9, R51, R60), keeping the canonical form. -/
def Memory.write (m : Memory) (a : Nat) (b : Byte) : Memory := Memory.insert (m.filter (fun c => c.1 ≠ a)) a b

/-- `ReadBytes(p, n)` (rule R53): the byte at the lowest address is element 0. -/
def Memory.readBytes (m : Memory) (p n : Nat) : List Byte := (List.range n).map (fun i => m.read (p + i))

/-- `WriteBytes(p, s)` (rule R54): element 0 goes to the lowest address. -/
def Memory.writeBytes : Memory → Nat → List Byte → Memory
  | m, _, [] => m
  | m, p, b :: bs => Memory.writeBytes (Memory.write m p b) (p + 1) bs

/-- Write `HS` (rule R26). -/
def State.setHash (s : State) (c : Ctx) : State := { s with hs := c }

/-- Write `PHASE` (rule R25). -/
def State.setPhase (s : State) (p : Phase) : State := { s with phase := p }

/-- Write `MEM` (rule R32). -/
def State.setMem (s : State) (m : Memory) : State := { s with mem := m }

/-- Leave `ws` as the words still to be consumed (rule R30). -/
def State.setCmdq (s : State) (ws : List Word) : State := { s with cmdq := ws }

/-- The context that stands where the spec leaves one unspecified (log entry 2). -/
def State.freeCtx (s : State) : Ctx := Config.freeCtx s.freeCount s.hs

/-- Advance the counter of the free value, so that the next draw is another one (log entry 2). -/
def State.drawFree (s : State) : State := { s with freeCount := s.freeCount + 1 }

/-- `respond(status, value)` (rules R9, R89): append one response word. -/
def State.respond (s : State) (st : Status) (value : Byte) : State :=
  { s with rspq := s.rspq ++ [responseWord st value] }

/-- `raise <Failure>` (rules R9, R201, R209): the command changes nothing and answers the failure's code with value 0. This hardware has
no trap entry and no return from one (rules R212, R213), so this is all that taking a failure does. -/
def State.raise (s : State) (f : Status) : State := s.respond f 0

/-- What ILLEGAL_COMMAND does once the decoder has consumed the one header word (rules R87, R88, R204). -/
def State.raiseIllegal (s : State) : State := s.raise .illegalCommand

end Sys2Proof.Machine
end

