-- ==== Sys2Proof/Syntax.lean ====
section
/-! DEFINITION. The seven commands of CORE-CMD 1 as syntax (rule R86, table T-R83). The operands stand in the order of the words of
the command: the header's 8-bit fields first, then the operand words. -/

namespace Sys2Proof

/-- One fragment of HMACV, a (pointer, length) pair carried in the command itself (rule R85). -/
structure Fragment where
  ptr : Word
  len : Word
  deriving DecidableEq, Repr

/-- The commands, one constructor per row of table T-R86. -/
inductive Instr where
  /-- SHA1_INIT (rule R130). -/
  | sha1Init
  /-- SHA1_UPDATE (rule R131). -/
  | sha1Update (srcPtr srcLen : Word)
  /-- SHA1_FINAL (rule R132). -/
  | sha1Final (dstPtr : Word)
  /-- HMAC, the single-fragment form (rule R166). -/
  | hmac (klen : Byte) (msgPtr msgLen keyPtr dstPtr : Word)
  /-- HMACV, the vectorized form (rule R165); the header's `count` is the length of the list. -/
  | hmacv (klen : Byte) (keyPtr dstPtr : Word) (frags : List Fragment)
  /-- AUTH (rule R182). -/
  | auth (size cap : Byte) (bufPtr keyPtr : Word)
  /-- VERIFY (rule R183). -/
  | verify (size : Byte) (bufPtr keyPtr : Word)
  deriving DecidableEq, Repr

end Sys2Proof
end

