-- ==== Sys2Proof/Machine/Operands.lean ====
section
/-! DEFINITION. The one operand form of the hardware, a byte range `[p, p + n)` of data memory (rules R53, R91): its admission
(rules R55 to R57), and the ranges each command reads and writes (rule R58). -/

namespace Sys2Proof.Machine

/-- Whether an address is in the set of addresses a list of regions stands for (rule R55, log entry 3). -/
def covered (regions : List Region) (a : Nat) : Bool :=
  regions.any (fun r => decide (r.base ≤ a) && decide (a < r.base + r.size))

/-- Range admission against a set of addresses (rule R56): the sum is over the integers, so a range never wraps. -/
def admitted (regions : List Region) (p n : Nat) : Bool :=
  decide (n = 0) || (decide (p + n ≤ Config.addressSpace) && (List.range n).all (fun i => covered regions (p + i)))

/-- `read_ok(p, n)` (rule R56). -/
def readOk (s : State) (p n : Nat) : Bool := admitted s.platform.readable p n

/-- `write_ok(p, n)` (rule R56). -/
def writeOk (s : State) (p n : Nat) : Bool := admitted s.platform.writable p n

/-- `read_ok` on every fragment of a list (rules R57, R165). -/
def fragmentsOk (s : State) (frags : List Fragment) : Bool := frags.all (fun f => readOk s f.ptr.toNat f.len.toNat)

/-- The byte sequence of one fragment (rules R53, R165). -/
def readFragment (m : Memory) (f : Fragment) : List Byte := m.readBytes f.ptr.toNat f.len.toNat

/-- A byte range as its first address and its length. -/
abbrev Range := Nat × Nat

/-- Table T-R58, column "ranges read" (rule R58): what a command that succeeds reads. -/
def readRanges : Instr → List Range
  | .sha1Init => []
  | .sha1Update srcPtr srcLen => [(srcPtr.toNat, srcLen.toNat)]
  | .sha1Final _ => []
  | .hmac klen msgPtr msgLen keyPtr _ => [(keyPtr.toNat, klen.toNat), (msgPtr.toNat, msgLen.toNat)]
  | .hmacv klen keyPtr _ frags => (keyPtr.toNat, klen.toNat) :: frags.map (fun f => (f.ptr.toNat, f.len.toNat))
  | .auth size _ bufPtr keyPtr => [(keyPtr.toNat, Config.wrapKeyBytes), (bufPtr.toNat, size.toNat)]
  | .verify size bufPtr keyPtr => [(keyPtr.toNat, Config.wrapKeyBytes), (bufPtr.toNat, size.toNat)]

/-- Table T-R58, column "ranges written" (rule R58): what a command that succeeds writes. -/
def writeRanges : Instr → List Range
  | .sha1Init => []
  | .sha1Update _ _ => []
  | .sha1Final dstPtr => [(dstPtr.toNat, Config.digestBytes)]
  | .hmac _ _ _ _ dstPtr => [(dstPtr.toNat, Config.digestBytes)]
  | .hmacv _ _ dstPtr _ => [(dstPtr.toNat, Config.digestBytes)]
  | .auth size _ bufPtr _ => [(bufPtr.toNat + size.toNat, Config.tagBytes)]
  | .verify _ _ _ => []

/-- Whether an address lies in a range. -/
def inRange (r : Range) (a : Nat) : Bool := decide (r.1 ≤ a) && decide (a < r.1 + r.2)

end Sys2Proof.Machine
end

