-- ==== Sys2Proof/Machine/HashEngine.lean ====
section
/-! DEFINITION. HashEngine (rules R120 to R137): block compression, the functions on a hash context, and the meanings of SHA1_INIT,
SHA1_UPDATE and SHA1_FINAL. -/

namespace Sys2Proof.Machine

/-- The five words every fresh context starts from (rules R20, R121). -/
def initialWords : HashWords :=
  { h0 := 0x67452301, h1 := 0xEFCDAB89, h2 := 0x98BADCFE, h3 := 0x10325476, h4 := 0xC3D2E1F0 }

/-- Byte `i` of a block. -/
def blockByte (b : Block) (i : Nat) : Byte := b.toList.getD i 0

/-- Schedule words 0 to 15: the sixteen big-endian words of the block (rules R61 a, R124). -/
def loadWords (b : Block) : List Word :=
  (List.range 16).map
    (fun t => be32 (blockByte b (4 * t)) (blockByte b (4 * t + 1)) (blockByte b (4 * t + 2)) (blockByte b (4 * t + 3)))

/-- The schedule word `W[t]`, from the words before it with the latest first: `W[t-3]`, `W[t-8]`, `W[t-14]` and `W[t-16]` are elements 2,
7, 13 and 15 of the list (rule R125). -/
def nextWord (latest : List Word) : Word :=
  rotl 1 (latest.getD 2 0 ^^^ latest.getD 7 0 ^^^ latest.getD 13 0 ^^^ latest.getD 15 0)

/-- Extend a schedule, latest word first, by `n` words in increasing order of `t` (rule R125). -/
def extendSchedule : Nat → List Word → List Word
  | 0, latest => latest
  | n + 1, latest => extendSchedule n (nextWord latest :: latest)

/-- The message schedule `W[0]` to `W[79]` of a block (rules R124, R125). -/
def schedule (b : Block) : List Word := (extendSchedule 64 (loadWords b).reverse).reverse

/-- The stage functions `f(t, b, c, d)` (rule R126; conflict C3 on stages 1 and 3). -/
def stageFunction (t : Nat) (b c d : Word) : Word :=
  if t < 20 then (b &&& c) ||| (~~~b &&& d)
  else if t < 40 then b ^^^ c ^^^ d
  else if t < 60 then (b &&& c) ||| (b &&& d) ||| (c &&& d)
  else b ^^^ c ^^^ d

/-- The stage constants `K(t)` (rule R127). -/
def stageConstant (t : Nat) : Word :=
  if t < 20 then 0x5A827999
  else if t < 40 then 0x6ED9EBA1
  else if t < 60 then 0x8F1BBCDC
  else 0xCA62C1D6

/-- The five working registers (rule R28). -/
structure Working where
  a : Word
  b : Word
  c : Word
  d : Word
  e : Word
  deriving DecidableEq, Repr

/-- One round: all five assignments take their right-hand sides from the values before the round (rule R128). -/
def hashRound (t : Nat) (w : Word) (r : Working) : Working :=
  { a := rotl 5 r.a + stageFunction t r.b r.c r.d + r.e + stageConstant t + w
    b := r.a
    c := rotl 30 r.b
    d := r.c
    e := r.d }

/-- The rounds from round `t` on, one for each schedule word given (rule R128). -/
def hashRounds : Nat → List Word → Working → Working
  | _, [], r => r
  | t, w :: ws, r => hashRounds (t + 1) ws (hashRound t w r)

/-- The working registers before round 0 (rule R128). -/
def startWorking (h : HashWords) : Working := { a := h.h0, b := h.h1, c := h.h2, d := h.h3, e := h.h4 }

/-- The final additions (rule R129). -/
def addWorking (h : HashWords) (r : Working) : HashWords :=
  { h0 := h.h0 + r.a, h1 := h.h1 + r.b, h2 := h.h2 + r.c, h3 := h.h3 + r.d, h4 := h.h4 + r.e }

/-- `compress(H, B)` (rules R124 to R129). No command selects it (rule R133). It is irreducible so that no proof runs the 80 rounds by
accident; `compress_eq` (Laws/Hash.lean) unfolds it, and the kernel evaluates it. -/
@[irreducible] def compress (h : HashWords) (b : Block) : HashWords := addWorking h (hashRounds 0 (schedule b) (startWorking h))

/-- `ctx_init()` (rules R35, R121). -/
def ctxInit : Ctx := { h := initialWords, lenLo := 0, lenHi := 0, blk := Vector.replicate 64 0, idx := 0 }

/-- `LEN_HI` after a byte, given `LEN_LO` after it: the carry of the two-word counter (rule R122). -/
def carryHigh (lo hi : Word) : Word := if lo < 8 then hi + 1 else hi

/-- One pass of the loop of `ctx_update` (rule R122): store the byte, count its 8 bits, and compress the block when it is full. The
block is not cleared after a compression. -/
def absorbByte (c : Ctx) (x : Byte) : Ctx :=
  if h : c.idx.val + 1 < 64 then
    { h := c.h
      lenLo := c.lenLo + 8
      lenHi := carryHigh (c.lenLo + 8) c.lenHi
      blk := c.blk.set c.idx.val x c.idx.isLt
      idx := ⟨c.idx.val + 1, h⟩ }
  else
    { h := compress c.h (c.blk.set c.idx.val x c.idx.isLt)
      lenLo := c.lenLo + 8
      lenHi := carryHigh (c.lenLo + 8) c.lenHi
      blk := c.blk.set c.idx.val x c.idx.isLt
      idx := 0 }

/-- `ctx_update(c, s)` (rule R122). -/
def ctxUpdate (c : Ctx) (s : List Byte) : Ctx := s.foldl absorbByte c

/-- Store a byte sequence into a block from place `i` on. -/
def storeBlock : Block → Nat → List Byte → Block
  | b, _, [] => b
  | b, i, x :: xs => storeBlock (b.setIfInBounds i x) (i + 1) xs

/-- Zero the bytes `i` to `j - 1` of a block: the `while` loops of rule R123. -/
def zeroBlock (b : Block) (i j : Nat) : Block := storeBlock b i (List.replicate (j - i) 0)

/-- Put the length into the last 8 bytes of a block, most significant byte first (rules R61 b, R123). -/
def storeLength (b : Block) (hi lo : Word) : Block := storeBlock (storeBlock b 56 (bytesBe32 hi)) 60 (bytesBe32 lo)

/-- The block with the `0x80` byte that starts the padding (rule R123). -/
def padStart (c : Ctx) : Block := c.blk.set c.idx.val 0x80 c.idx.isLt

/-- The hash words `ctx_final` serializes (rule R123): a second block is used when fewer than 9 bytes remained. -/
def finalWords (c : Ctx) : HashWords :=
  if c.idx.val + 1 > 56 then
    compress (compress c.h (zeroBlock (padStart c) (c.idx.val + 1) 64))
      (storeLength (zeroBlock (zeroBlock (padStart c) (c.idx.val + 1) 64) 0 56) c.lenHi c.lenLo)
  else compress c.h (storeLength (zeroBlock (padStart c) (c.idx.val + 1) 56) c.lenHi c.lenLo)

/-- A digest: the five hash words, each most significant byte first (rules R61 c, R123). -/
def serialize (h : HashWords) : List Byte :=
  bytesBe32 h.h0 ++ bytesBe32 h.h1 ++ bytesBe32 h.h2 ++ bytesBe32 h.h3 ++ bytesBe32 h.h4

/-- The digest of `ctx_final(c)` (rule R123). It is irreducible, as `compress` is; `ctxDigest_eq` (Laws/Hash.lean) unfolds it. -/
@[irreducible] def ctxDigest (c : Ctx) : List Byte := serialize (finalWords c)

/-- The context `ctx_final` leaves: the two length halves and the fill index are 0, and `H` and `BLK` are unspecified (rules R27, R123,
conflict C6), so they are those of the free context given (log entry 2). -/
def ctxAfterFinal (free : Ctx) : Ctx := { h := free.h, lenLo := 0, lenHi := 0, blk := free.blk, idx := 0 }

/-- `sha1(M)` (rule R137). -/
def sha1 (m : List Byte) : List Byte := ctxDigest (ctxUpdate ctxInit m)

/-- The padded message of rule R137's closed form: `M ‖ 0x80 ‖ zeros ‖ length`, a whole number of blocks. -/
def paddedMessage (m : List Byte) : List Byte :=
  m ++ [0x80] ++ List.replicate ((64 - (m.length + 9) % 64) % 64) 0 ++ bytesBe32 (BitVec.ofNat 32 (8 * m.length / 2 ^ 32))
    ++ bytesBe32 (BitVec.ofNat 32 (8 * m.length))

/-- Block `k` of a byte sequence, its bytes `64·k` to `64·k + 63`. -/
def messageBlock (s : List Byte) (k : Nat) : Block := storeBlock (Vector.replicate 64 0) 0 ((s.drop (64 * k)).take 64)

/-- Fold `compress` over the first `n` blocks of a byte sequence, from the initial words (rule R137). -/
def foldBlocks (s : List Byte) (n : Nat) : HashWords := (List.range n).foldl (fun h k => compress h (messageBlock s k)) initialWords

/-- Rule R137's closed form of `sha1(M)`. -/
def sha1ClosedForm (m : List Byte) : List Byte := serialize (foldBlocks (paddedMessage m) ((paddedMessage m).length / 64))

/-- SHA1_INIT (rule R130). -/
def execSha1Init (s : State) : Host.Outcome State Fault Refusal :=
  .next (((s.setHash ctxInit).setPhase .active).respond .ok 0)

/-- SHA1_UPDATE (rule R131). -/
def execSha1Update (srcPtr srcLen : Word) (s : State) : Host.Outcome State Fault Refusal :=
  if !s.isActive then .next (s.raise .sequenceError)
  else if !readOk s srcPtr.toNat srcLen.toNat then .next (s.raise .memFault)
  else if bitLength s.hs + 8 * srcLen.toNat ≥ Config.bitLimit then .next (s.raise .lengthOverflow)
  else .next ((s.setHash (ctxUpdate s.hs (s.mem.readBytes srcPtr.toNat srcLen.toNat))).respond .ok 0)

/-- SHA1_FINAL (rule R132). `H` and `BLK` take a free value, the counters are zero (rule R27). -/
def execSha1Final (dstPtr : Word) (s : State) : Host.Outcome State Fault Refusal :=
  if !s.isActive then .next (s.raise .sequenceError)
  else if !writeOk s dstPtr.toNat Config.digestBytes then .next (s.raise .memFault)
  else
    .next (((((s.setHash (ctxAfterFinal s.freeCtx)).drawFree).setMem
      (s.mem.writeBytes dstPtr.toNat (ctxDigest s.hs))).setPhase .idle).respond .ok 0)

end Sys2Proof.Machine
end

