-- ==== Sys2Proof/Machine/HmacEngine.lean ====
section
/-! DEFINITION. HmacEngine (rules R160 to R169): the function `hmac` on private hash contexts, and the meanings of HMAC and HMACV. -/

namespace Sys2Proof.Machine

/-- `K0`: the key followed by zero bytes up to 64 (rule R160). -/
def keyBlock (k : List Byte) : List Byte := k ++ List.replicate (Config.blockBytes - k.length) 0

/-- `IPAD` (rule R161). -/
def innerPad (k : List Byte) : List Byte := (keyBlock k).map (fun b => b ^^^ 0x36)

/-- `OPAD` (rule R161). -/
def outerPad (k : List Byte) : List Byte := (keyBlock k).map (fun b => b ^^^ 0x5C)

/-- `INNER`: the inner pad and then each fragment in order, on a private context (rule R162). -/
def innerDigest (k : List Byte) (frags : List (List Byte)) : List Byte :=
  ctxDigest (frags.foldl ctxUpdate (ctxUpdate ctxInit (innerPad k)))

/-- `hmac(k, F)`: the outer pad and then the inner digest, on a second private context (rules R163, R164). -/
def hmac (k : List Byte) (frags : List (List Byte)) : List Byte :=
  ctxDigest (ctxUpdate (ctxUpdate ctxInit (outerPad k)) (innerDigest k frags))

/-- What HMAC and HMACV share (rules R165, R166): the key-length check, the admission of the key, of every fragment and of the
destination, then the digest. Every byte is read from the memory before the command (rule R59). -/
def hmacCommand (klen : Byte) (keyPtr dstPtr : Word) (frags : List Fragment) (s : State) : Host.Outcome State Fault Refusal :=
  if klen.toNat > Config.maxKeyBytes then .next (s.raise .keyTooLong)
  else if !readOk s keyPtr.toNat klen.toNat then .next (s.raise .memFault)
  else if !fragmentsOk s frags then .next (s.raise .memFault)
  else if !writeOk s dstPtr.toNat Config.digestBytes then .next (s.raise .memFault)
  else
    .next ((s.setMem (s.mem.writeBytes dstPtr.toNat
      (hmac (s.mem.readBytes keyPtr.toNat klen.toNat) (frags.map (readFragment s.mem))))).respond .ok 0)

/-- HMAC (rule R166): HMACV with one fragment. -/
def execHmac (klen : Byte) (msgPtr msgLen keyPtr dstPtr : Word) (s : State) : Host.Outcome State Fault Refusal :=
  hmacCommand klen keyPtr dstPtr [{ ptr := msgPtr, len := msgLen }] s

/-- HMACV (rules R165, R168). -/
def execHmacv (klen : Byte) (keyPtr dstPtr : Word) (frags : List Fragment) (s : State) : Host.Outcome State Fault Refusal :=
  hmacCommand klen keyPtr dstPtr frags s

end Sys2Proof.Machine
end

