-- ==== Sys2Proof/Machine/TagCodec.lean ====
section
/-! DEFINITION. TagCodec (rules R180 to R189): the tag function and the meanings of AUTH and VERIFY. The codec uses the function `hmac`
and nothing else of HmacEngine (rule R189). -/

namespace Sys2Proof.Machine

/-- `tag(k, m)`: the first 10 bytes of the digest (rule R181). -/
def tag (k m : List Byte) : List Byte := (hmac k [m]).take Config.tagBytes

/-- The comparison of rule R186: the differences of all the bytes, combined by `or`; zero iff no byte differs. -/
def tagDifference (t r : List Byte) : Byte := (List.zipWith (fun x y => x ^^^ y) t r).foldl (fun d x => d ||| x) 0

/-- AUTH (rule R182). The sums are over the integers (rule R184), and the tag is computed from the memory before the command (rules R59,
R238). -/
def execAuth (size cap : Byte) (bufPtr keyPtr : Word) (s : State) : Host.Outcome State Fault Refusal :=
  if size.toNat + Config.tagBytes > cap.toNat then .next (s.raise .capacityExceeded)
  else if !readOk s keyPtr.toNat Config.wrapKeyBytes then .next (s.raise .memFault)
  else if !readOk s bufPtr.toNat size.toNat then .next (s.raise .memFault)
  else if !writeOk s (bufPtr.toNat + size.toNat) Config.tagBytes then .next (s.raise .memFault)
  else
    .next ((s.setMem (s.mem.writeBytes (bufPtr.toNat + size.toNat)
      (tag (s.mem.readBytes keyPtr.toNat Config.wrapKeyBytes) (s.mem.readBytes bufPtr.toNat size.toNat)))).respond .ok
        (BitVec.ofNat 8 (size.toNat + Config.tagBytes)))

/-- VERIFY (rules R183, R185, R186): it reads and never writes memory. -/
def execVerify (size : Byte) (bufPtr keyPtr : Word) (s : State) : Host.Outcome State Fault Refusal :=
  if size.toNat ≤ Config.tagBytes then .next (s.raise .verificationFailed)
  else if !readOk s keyPtr.toNat Config.wrapKeyBytes then .next (s.raise .memFault)
  else if !readOk s bufPtr.toNat size.toNat then .next (s.raise .memFault)
  else if tagDifference
      (tag (s.mem.readBytes keyPtr.toNat Config.wrapKeyBytes) (s.mem.readBytes bufPtr.toNat (size.toNat - Config.tagBytes)))
      (s.mem.readBytes (bufPtr.toNat + (size.toNat - Config.tagBytes)) Config.tagBytes) ≠ 0 then
    .next (s.raise .verificationFailed)
  else .next (s.respond .ok (BitVec.ofNat 8 (size.toNat - Config.tagBytes)))

end Sys2Proof.Machine
end

