-- ==== Sys2Proof/Machine/Dispatch.lean ====
section
/-! DEFINITION. The dispatch of the seven commands to their meanings (table T-R86). -/

namespace Sys2Proof.Machine

def exec (i : Instr) (s : State) : Host.Outcome State Fault Refusal :=
  match i with
  | .sha1Init => Sys2Proof.Machine.execSha1Init s
  | .sha1Update srcPtr srcLen => Sys2Proof.Machine.execSha1Update srcPtr srcLen s
  | .sha1Final dstPtr => Sys2Proof.Machine.execSha1Final dstPtr s
  | .hmac klen msgPtr msgLen keyPtr dstPtr => Sys2Proof.Machine.execHmac klen msgPtr msgLen keyPtr dstPtr s
  | .hmacv klen keyPtr dstPtr frags => Sys2Proof.Machine.execHmacv klen keyPtr dstPtr frags s
  | .auth size cap bufPtr keyPtr => Sys2Proof.Machine.execAuth size cap bufPtr keyPtr s
  | .verify size bufPtr keyPtr => Sys2Proof.Machine.execVerify size bufPtr keyPtr s

end Sys2Proof.Machine
end

