-- ==== Sys2Proof/WellFormed.lean ====
section
/-! DEFINITION. Which terms of `Instr` are commands of CORE-CMD 1 (rule R82). Every operand already has the width of its field or word;
the one check left is the width of HMACV's fragment count. -/

namespace Sys2Proof

/-- Rule R82, format KV: the number of fragments is 0 to 255 (`CNTW = 8`, table T-R6). Every other command is well formed for every
value of its operands (rule R87: field values are never illegal at decode). -/
def Instr.WellFormed : Instr → Bool
  | .sha1Init => true
  | .sha1Update _ _ => true
  | .sha1Final _ => true
  | .hmac _ _ _ _ _ => true
  | .hmacv _ _ _ frags => frags.length ≤ 255
  | .auth _ _ _ _ => true
  | .verify _ _ _ => true

end Sys2Proof
end

