-- ==== Sys2Proof/Decode.lean ====
section
/-! DEFINITION. The encoding of CORE-CMD 1 (rules R80 to R95): header fields, the decoder (total on any words, rejecting by name), the
encoder, the opcode map and the pseudo-instructions. -/

namespace Sys2Proof

/-- Bits 7:0 of a header, the field `op` (rule R81). -/
def fieldOp (h : Word) : Byte := BitVec.ofNat 8 h.toNat

/-- Bits 15:8 of a header, the field `a` (rule R81). -/
def fieldA (h : Word) : Byte := BitVec.ofNat 8 (h.toNat / 2 ^ 8)

/-- Bits 23:16 of a header, the field `b` (rule R81). -/
def fieldB (h : Word) : Byte := BitVec.ofNat 8 (h.toNat / 2 ^ 16)

/-- Bits 31:24 of a header, the reserved field `z` (rule R81). -/
def fieldZ (h : Word) : Byte := BitVec.ofNat 8 (h.toNat / 2 ^ 24)

/-- A header with `z = 0`: `op + a·2^8 + b·2^16` (rule R81). -/
def headerWord (op a b : Byte) : Word := BitVec.ofNat 32 (op.toNat + a.toNat * 2 ^ 8 + b.toNat * 2 ^ 16)

/-- The values of `op` that select a command (rule R86). -/
inductive Opcode where
  | sha1Init
  | sha1Update
  | sha1Final
  | hmac
  | hmacv
  | auth
  | verify
  deriving DecidableEq, Repr

/-- Every opcode, in the order of table T-R86. -/
def allOpcodes : List Opcode := [.sha1Init, .sha1Update, .sha1Final, .hmac, .hmacv, .auth, .verify]

/-- Column `op` of table T-R86 (rule R86). -/
def opcodeByte : Opcode → Byte
  | .sha1Init => 0x01
  | .sha1Update => 0x02
  | .sha1Final => 0x03
  | .hmac => 0x04
  | .hmacv => 0x05
  | .auth => 0x06
  | .verify => 0x07

/-- Column `match` of table T-R86 (rule R86). -/
def opcodeMatch : Opcode → Word
  | .sha1Init => 0x00000001
  | .sha1Update => 0x00000002
  | .sha1Final => 0x00000003
  | .hmac => 0x00000004
  | .hmacv => 0x00000005
  | .auth => 0x00000006
  | .verify => 0x00000007

/-- Column `mask` of table T-R86 (rule R86). -/
def opcodeMask : Opcode → Word
  | .sha1Init => 0xFFFFFFFF
  | .sha1Update => 0xFFFFFFFF
  | .sha1Final => 0xFFFFFFFF
  | .hmac => 0xFFFF00FF
  | .hmacv => 0xFF0000FF
  | .auth => 0xFF0000FF
  | .verify => 0xFFFF00FF

/-- The five header formats (rule R82). -/
inductive Format where
  | n
  | k
  | kv
  | sc
  | s
  deriving DecidableEq, Repr

/-- Column `format` of table T-R86 (rules R82, R86). -/
def opcodeFormat : Opcode → Format
  | .sha1Init => .n
  | .sha1Update => .n
  | .sha1Final => .n
  | .hmac => .k
  | .hmacv => .kv
  | .auth => .sc
  | .verify => .s

/-- Whether a format gives the field `a` a meaning; where it does not, `a` must be zero (rule R82). -/
def formatUsesA : Format → Bool
  | .n => false
  | .k => true
  | .kv => true
  | .sc => true
  | .s => true

/-- Whether a format gives the field `b` a meaning; where it does not, `b` must be zero (rule R82). -/
def formatUsesB : Format → Bool
  | .n => false
  | .k => false
  | .kv => true
  | .sc => true
  | .s => false

/-- Why a header word selects no command (rule R87). The reason is told to the reader only: the response records nothing of it (rule
R209). -/
inductive Illegal where
  /-- The reserved field `z` is not zero. -/
  | reservedZ
  /-- `op` is `0x00` or at least `0x08`. -/
  | unknownOpcode
  /-- The field `a` is not zero and the format does not use it. -/
  | unusedA
  /-- The field `b` is not zero and the format does not use it. -/
  | unusedB
  deriving DecidableEq, Repr

/-- The opcode an `op` field names (rule R86). -/
def opcodeOf (op : Byte) : Option Opcode := allOpcodes.find? (fun o => opcodeByte o == op)

/-- The command a header word selects, or why it selects none (rules R86, R87). -/
def selectCommand (h : Word) : Except Illegal Opcode :=
  if fieldZ h ≠ 0 then .error .reservedZ
  else
    match opcodeOf (fieldOp h) with
    | none => .error .unknownOpcode
    | some o =>
      if !formatUsesA (opcodeFormat o) && fieldA h ≠ 0 then .error .unusedA
      else if !formatUsesB (opcodeFormat o) && fieldB h ≠ 0 then .error .unusedB
      else .ok o

/-- The number of operand words of a command, from its opcode and the field `b` of its header (rules R84, R85, table T-R83). -/
def operandCount (o : Opcode) (b : Byte) : Nat :=
  match o with
  | .sha1Init => 0
  | .sha1Update => 2
  | .sha1Final => 1
  | .hmac => 4
  | .hmacv => 2 + 2 * b.toNat
  | .auth => 2
  | .verify => 2

/-- The number of words a header word starts, itself included; an illegal header is one word (rules R84, R88). -/
def commandLength (h : Word) : Nat :=
  match selectCommand h with
  | .error _ => 1
  | .ok o => 1 + operandCount o (fieldB h)

/-- Take `n` fragments, each a pointer word and then a length word, from the front of the stream (rule R85). -/
def takeFragments : Nat → List Word → Option (List Fragment × List Word)
  | 0, ws => some ([], ws)
  | n + 1, p :: l :: ws =>
    match takeFragments n ws with
    | some (fs, rest) => some ({ ptr := p, len := l } :: fs, rest)
    | none => none
  | _ + 1, _ => none

/-- Take the operand words of a command from the stream behind its header `h` (rules R83, R91, table T-R83); `none` if they have not all
arrived. -/
def takeOperands (o : Opcode) (h : Word) (ws : List Word) : Option (Instr × List Word) :=
  match o, ws with
  | .sha1Init, rest => some (.sha1Init, rest)
  | .sha1Update, srcPtr :: srcLen :: rest => some (.sha1Update srcPtr srcLen, rest)
  | .sha1Final, dstPtr :: rest => some (.sha1Final dstPtr, rest)
  | .hmac, msgPtr :: msgLen :: keyPtr :: dstPtr :: rest => some (.hmac (fieldA h) msgPtr msgLen keyPtr dstPtr, rest)
  | .hmacv, keyPtr :: dstPtr :: more =>
    match takeFragments (fieldB h).toNat more with
    | some (frags, rest) => some (.hmacv (fieldA h) keyPtr dstPtr frags, rest)
    | none => none
  | .auth, bufPtr :: keyPtr :: rest => some (.auth (fieldA h) (fieldB h) bufPtr keyPtr, rest)
  | .verify, bufPtr :: keyPtr :: rest => some (.verify (fieldA h) bufPtr keyPtr, rest)
  | _, _ => none

/-- What stands at the front of a command stream. -/
inductive Decoded where
  /-- A whole command, and the words after it. -/
  | command (i : Instr) (rest : List Word)
  /-- An illegal header, which is one word, and the words after it (rule R88). -/
  | illegal (why : Illegal) (rest : List Word)
  /-- No word, or a header whose operand words have not all arrived (rule R90). -/
  | incomplete
  deriving DecidableEq, Repr

/-- The decoder (rules R80, R84, R86 to R88, R90). -/
def decode : List Word → Decoded
  | [] => .incomplete
  | h :: ws =>
    match selectCommand h with
    | .error why => .illegal why ws
    | .ok o =>
      match takeOperands o h ws with
      | some (i, rest) => .command i rest
      | none => .incomplete

/-- The words of a fragment list (rule R85). -/
def encodeFragments : List Fragment → List Word
  | [] => []
  | f :: fs => f.ptr :: f.len :: encodeFragments fs

/-- The words of a command (rules R81 to R86, table T-R83). -/
def encode : Instr → List Word
  | .sha1Init => [headerWord (opcodeByte .sha1Init) 0 0]
  | .sha1Update srcPtr srcLen => [headerWord (opcodeByte .sha1Update) 0 0, srcPtr, srcLen]
  | .sha1Final dstPtr => [headerWord (opcodeByte .sha1Final) 0 0, dstPtr]
  | .hmac klen msgPtr msgLen keyPtr dstPtr => [headerWord (opcodeByte .hmac) klen 0, msgPtr, msgLen, keyPtr, dstPtr]
  | .hmacv klen keyPtr dstPtr frags =>
    headerWord (opcodeByte .hmacv) klen (BitVec.ofNat 8 frags.length) :: keyPtr :: dstPtr :: encodeFragments frags
  | .auth size cap bufPtr keyPtr => [headerWord (opcodeByte .auth) size cap, bufPtr, keyPtr]
  | .verify size bufPtr keyPtr => [headerWord (opcodeByte .verify) size 0, bufPtr, keyPtr]

/-- The pseudo-instruction `SHA1 src_ptr, src_len, dst_ptr` (rule R94). -/
def pseudoSha1 (srcPtr srcLen dstPtr : Word) : List Instr := [.sha1Init, .sha1Update srcPtr srcLen, .sha1Final dstPtr]

/-- The pseudo-instruction `SHA1_EMPTY dst_ptr` (rule R94). -/
def pseudoSha1Empty (dstPtr : Word) : List Instr := [.sha1Init, .sha1Final dstPtr]

/-- The words of the command whose bits are `w` with every bit from `nbits` on zero, as opcode_table.json numbers them: bit 0 is the
least significant bit of the header, and the operand words count on from bit 32. -/
def tableWords (nbits w : Nat) : List Word :=
  (List.range (commandLength (BitVec.ofNat 32 (w % 2 ^ nbits)))).map (fun k => BitVec.ofNat 32 (w % 2 ^ nbits / 2 ^ (32 * k)))

/-- The instruction the decoder reads from the bits `w` (see `tableWords`); `none` where it refuses. -/
def decodeTableWord (nbits w : Nat) : Option Instr :=
  match decode (tableWords nbits w) with
  | .command i _ => some i
  | .illegal _ _ => none
  | .incomplete => none

end Sys2Proof
end

