-- ==== Sys2Proof/Machine/Port.lean ====
section
/-! DEFINITION. The command port as the block sees it (rules R30, R80, R90), and the moves of the host between commands (rules R230,
R231, R246). The host's moves are no steps of the machine: they stand between two steps. -/

namespace Sys2Proof.Machine

/-- What the block finds at the front of its command stream (rules R30, R90). -/
def State.fetch (s : State) : Decoded := decode s.cmdq

/-- The host's move "issue a command" (table T-R246): words are appended to the command stream (rule R31). -/
def State.supply (s : State) (ws : List Word) : State := s.setCmdq (s.cmdq ++ ws)

/-- The host's move "launch" (table T-R246, rule R231): the post-reset state with a memory and a command stream. -/
def State.launch (mem : Memory) (program : List Word) : State := (State.reset.setMem mem).setCmdq program

/-- The host writes one byte of memory between commands (table T-R246). -/
def State.hostWrite (s : State) (a : Nat) (b : Byte) : State := s.setMem (s.mem.write a b)

/-- The host reads bytes of memory between commands (table T-R246). -/
def State.hostRead (s : State) (p n : Nat) : List Byte := s.mem.readBytes p n

/-- The host reads the response of the command numbered `k`, counted from 0 (table T-R246). `RSPQ` is append-only (rule R31), so how far
the host has read is the host's own affair. -/
def State.response (s : State) (k : Nat) : Option Word := s.rspq[k]?

/-- The platform's reset between commands (rule R230): `PHASE = IDLE`, both streams empty, memory untouched, and every field of `HS`
unspecified, so free (log entry 2). -/
def State.platformReset (s : State) : State :=
  { s with hs := s.freeCtx, phase := .idle, cmdq := [], rspq := [], freeCount := s.freeCount + 1 }

end Sys2Proof.Machine
end

