-- ==== Sys2Proof/Machine/Step.lean ====
section
/-! DEFINITION. One step: one whole command of the stream (rules R10, R30). -/

namespace Sys2Proof.Machine

/-- One step of the block (rules R10, R30, R90). A whole command is consumed and executed; an illegal header is consumed, one word, and
answered (rule R88); where no whole command has arrived the block waits and nothing changes (rules R90, R215, R230). -/
def step (s : State) : Host.Outcome State Fault Refusal :=
  match s.fetch with
  | .command i rest => exec i (s.setCmdq rest)
  | .illegal _ rest => .next (s.setCmdq rest).raiseIllegal
  | .incomplete => .next s

/-- The state with the command of `tableWords` at the front of the command stream, where `step` takes its next command (log entry 6):
what a host does that supplies it on the command port. -/
def State.withFetchWord (s : State) (nbits w : Nat) : State := s.setCmdq (tableWords nbits w ++ s.cmdq)

end Sys2Proof.Machine
end

