-- ==== Sys2Proof/Machine/Assembler.lean ====
section
/-! DEFINITION. The assembler text of rules R93 and R94: the line forms with their operands in the order of the source's signatures, the
range checks, the pseudo-instructions, and the text itself as a list of characters. It is no part of a step: a host uses it to write the
words it supplies. What rules R93 and R94 leave open of the text is log entry 9. -/

namespace Sys2Proof.Machine

/-- One line of assembler text, its operands as plain numbers in textual order (rules R93, R94). -/
inductive AsmLine where
  | sha1Init
  | sha1Update (srcPtr srcLen : Nat)
  | sha1Final (dstPtr : Nat)
  | hmac (msgPtr msgLen keyPtr klen dstPtr : Nat)
  | hmacv (frags : List (Nat × Nat)) (keyPtr klen dstPtr : Nat)
  | auth (bufPtr size cap keyPtr : Nat)
  | verify (bufPtr size keyPtr : Nat)
  /-- The pseudo-instruction `SHA1` (rule R94). -/
  | sha1 (srcPtr srcLen dstPtr : Nat)
  /-- The pseudo-instruction `SHA1_EMPTY` (rule R94). -/
  | sha1Empty (dstPtr : Nat)
  /-- `.word`, one raw command word, as program P4 of the spec uses it (log entry 9). -/
  | word (w : Nat)
  deriving DecidableEq, Repr

/-- Why the assembler rejects a text (rule R93). -/
inductive AsmError where
  /-- A `klen`, `size` or `cap` above 255. -/
  | immediateTooLarge
  /-- A pointer, a length or a `.word` above `2^32 - 1`. -/
  | wordTooLarge
  /-- A fragment list longer than 255. -/
  | listTooLong
  /-- A character that no form of rule R93 uses. -/
  | badCharacter
  /-- A word that starts with a digit and is no decimal or `0x` number. -/
  | badNumber
  /-- A line that is none of the forms of rules R93 and R94. -/
  | badLine
  deriving DecidableEq, Repr

/-- A `klen`, `size` or `cap` operand (rule R93). -/
def asmByte (n : Nat) : Except AsmError Byte := if n < 2 ^ 8 then .ok (BitVec.ofNat 8 n) else .error .immediateTooLarge

/-- A pointer or length operand (rule R93). -/
def asmWord (n : Nat) : Except AsmError Word := if n < 2 ^ 32 then .ok (BitVec.ofNat 32 n) else .error .wordTooLarge

/-- The fragments of a bracketed list (rule R93). -/
def asmFragments : List (Nat × Nat) → Except AsmError (List Fragment)
  | [] => .ok []
  | f :: fs =>
    match asmWord f.1, asmWord f.2, asmFragments fs with
    | .ok p, .ok n, .ok rest => .ok ({ ptr := p, len := n } :: rest)
    | .error e, _, _ => .error e
    | _, .error e, _ => .error e
    | _, _, .error e => .error e

/-- The commands a line stands for, or why the assembler rejects it (rules R93, R94); `.word` stands for none. -/
def asmCommands : AsmLine → Except AsmError (List Instr)
  | .sha1Init => .ok [.sha1Init]
  | .sha1Update srcPtr srcLen => do .ok [.sha1Update (← asmWord srcPtr) (← asmWord srcLen)]
  | .sha1Final dstPtr => do .ok [.sha1Final (← asmWord dstPtr)]
  | .hmac msgPtr msgLen keyPtr klen dstPtr => do
    .ok [.hmac (← asmByte klen) (← asmWord msgPtr) (← asmWord msgLen) (← asmWord keyPtr) (← asmWord dstPtr)]
  | .hmacv frags keyPtr klen dstPtr => do
    if frags.length > 255 then .error .listTooLong
    else .ok [.hmacv (← asmByte klen) (← asmWord keyPtr) (← asmWord dstPtr) (← asmFragments frags)]
  | .auth bufPtr size cap keyPtr => do .ok [.auth (← asmByte size) (← asmByte cap) (← asmWord bufPtr) (← asmWord keyPtr)]
  | .verify bufPtr size keyPtr => do .ok [.verify (← asmByte size) (← asmWord bufPtr) (← asmWord keyPtr)]
  | .sha1 srcPtr srcLen dstPtr => do .ok (pseudoSha1 (← asmWord srcPtr) (← asmWord srcLen) (← asmWord dstPtr))
  | .sha1Empty dstPtr => do .ok (pseudoSha1Empty (← asmWord dstPtr))
  | .word _ => .ok []

/-- The command words of a line: the encodings of its commands, or the raw word of `.word` (rules R93, R94). -/
def asmWords : AsmLine → Except AsmError (List Word)
  | .word w => do .ok [← asmWord w]
  | l => do .ok ((← asmCommands l).flatMap encode)

/-- What the text of a line is made of. -/
inductive AsmToken where
  | name (cs : List Char)
  | number (n : Nat)
  | comma
  | colon
  | openList
  | closeList
  deriving DecidableEq, Repr

/-- The value of a hexadecimal digit, in either case. -/
def digitValue (c : Char) : Option Nat :=
  if 48 ≤ c.toNat ∧ c.toNat ≤ 57 then some (c.toNat - 48)
  else if 97 ≤ c.toNat ∧ c.toNat ≤ 102 then some (c.toNat - 97 + 10)
  else if 65 ≤ c.toNat ∧ c.toNat ≤ 70 then some (c.toNat - 65 + 10)
  else none

/-- Read digits of a base, most significant first, onto a value. -/
def readDigits (base : Nat) : Nat → List Char → Option Nat
  | n, [] => some n
  | n, c :: cs =>
    match digitValue c with
    | some d => if d < base then readDigits base (n * base + d) cs else none
    | none => none

/-- A decimal or `0x` number (rule R93). -/
def readNumber : List Char → Option Nat
  | '0' :: 'x' :: c :: cs => readDigits 16 0 (c :: cs)
  | cs => readDigits 10 0 cs

/-- Whether a character is a decimal digit. -/
def isDigit (c : Char) : Bool := decide (48 ≤ c.toNat) && decide (c.toNat ≤ 57)

/-- Whether a character belongs to a mnemonic or a number: a letter, a digit, `_` or `.`. -/
def isWordChar (c : Char) : Bool :=
  isDigit c || (decide (65 ≤ c.toNat) && decide (c.toNat ≤ 90)) || (decide (97 ≤ c.toNat) && decide (c.toNat ≤ 122)) ||
    c == '_' || c == '.'

/-- The token of a finished word; no token where the word is empty. -/
def wordToken (cs : List Char) : Except AsmError (List AsmToken) :=
  match cs with
  | [] => .ok []
  | c :: _ =>
    if isDigit c then
      match readNumber cs with
      | some n => .ok [.number n]
      | none => .error .badNumber
    else .ok [.name cs]

/-- The token of a character that stands alone: none for a blank, a tab or a carriage return. -/
def markToken (c : Char) : Except AsmError (List AsmToken) :=
  if c == ' ' || c == '\t' || c == '\r' then .ok []
  else if c == ',' then .ok [.comma]
  else if c == ':' then .ok [.colon]
  else if c == '[' then .ok [.openList]
  else if c == ']' then .ok [.closeList]
  else .error .badCharacter

/-- The tokens of a line, with the word read so far; `#` starts a comment (rule R93). -/
def lexLine : List Char → List Char → Except AsmError (List AsmToken)
  | word, [] => wordToken word
  | word, c :: cs =>
    if c == '#' then wordToken word
    else if isWordChar c then lexLine (word ++ [c]) cs
    else
      match wordToken word, markToken c, lexLine [] cs with
      | .ok w, .ok m, .ok rest => .ok (w ++ m ++ rest)
      | .error e, _, _ => .error e
      | _, .error e, _ => .error e
      | _, _, .error e => .error e

/-- Numbers separated by commas, to the end of the line. -/
def readOperands : List AsmToken → Option (List Nat)
  | [.number n] => some [n]
  | .number n :: .comma :: rest =>
    match readOperands rest with
    | some ns => some (n :: ns)
    | none => none
  | _ => none

/-- A fragment list behind its opening bracket, and the tokens behind its closing bracket. -/
def readFragmentList : List AsmToken → Option (List (Nat × Nat) × List AsmToken)
  | .number p :: .colon :: .number n :: .closeList :: rest => some ([(p, n)], rest)
  | .number p :: .colon :: .number n :: .comma :: rest =>
    match readFragmentList rest with
    | some (fs, rest) => some ((p, n) :: fs, rest)
    | none => none
  | _ => none

/-- The bracketed list of HMACV, which may be empty (rule R93). -/
def readList : List AsmToken → Option (List (Nat × Nat) × List AsmToken)
  | .openList :: .closeList :: rest => some ([], rest)
  | .openList :: rest => readFragmentList rest
  | _ => none

/-- The mnemonics of rules R93 and R94, and `.word`. -/
inductive AsmMnemonic where
  | sha1Init
  | sha1Update
  | sha1Final
  | hmac
  | hmacv
  | auth
  | verify
  | sha1
  | sha1Empty
  | word
  deriving DecidableEq, Repr

/-- How each mnemonic is spelled. -/
def asmMnemonics : List (List Char × AsmMnemonic) :=
  [(['S', 'H', 'A', '1', '_', 'I', 'N', 'I', 'T'], .sha1Init),
   (['S', 'H', 'A', '1', '_', 'U', 'P', 'D', 'A', 'T', 'E'], .sha1Update),
   (['S', 'H', 'A', '1', '_', 'F', 'I', 'N', 'A', 'L'], .sha1Final),
   (['H', 'M', 'A', 'C'], .hmac),
   (['H', 'M', 'A', 'C', 'V'], .hmacv),
   (['A', 'U', 'T', 'H'], .auth),
   (['V', 'E', 'R', 'I', 'F', 'Y'], .verify),
   (['S', 'H', 'A', '1'], .sha1),
   (['S', 'H', 'A', '1', '_', 'E', 'M', 'P', 'T', 'Y'], .sha1Empty),
   (['.', 'w', 'o', 'r', 'd'], .word)]

/-- The mnemonic a word spells. -/
def mnemonicOf (cs : List Char) : Option AsmMnemonic := (asmMnemonics.find? (fun e => e.1 == cs)).map (fun e => e.2)

/-- The forms whose operands are numbers only (rules R93, R94). -/
def numberForm : AsmMnemonic → List Nat → Option AsmLine
  | .sha1Update, [srcPtr, srcLen] => some (.sha1Update srcPtr srcLen)
  | .sha1Final, [dstPtr] => some (.sha1Final dstPtr)
  | .hmac, [msgPtr, msgLen, keyPtr, klen, dstPtr] => some (.hmac msgPtr msgLen keyPtr klen dstPtr)
  | .auth, [bufPtr, size, cap, keyPtr] => some (.auth bufPtr size cap keyPtr)
  | .verify, [bufPtr, size, keyPtr] => some (.verify bufPtr size keyPtr)
  | .sha1, [srcPtr, srcLen, dstPtr] => some (.sha1 srcPtr srcLen dstPtr)
  | .sha1Empty, [dstPtr] => some (.sha1Empty dstPtr)
  | .word, [w] => some (.word w)
  | _, _ => none

/-- The form of HMACV behind its mnemonic (rule R93). -/
def listForm (ts : List AsmToken) : Option AsmLine :=
  match readList ts with
  | some (frags, .comma :: rest) =>
    match readOperands rest with
    | some [keyPtr, klen, dstPtr] => some (.hmacv frags keyPtr klen dstPtr)
    | _ => none
  | _ => none

/-- The line the tokens behind a mnemonic make. -/
def lineForm (m : AsmMnemonic) (ts : List AsmToken) : Option AsmLine :=
  match m, ts with
  | .sha1Init, [] => some .sha1Init
  | .hmacv, ts => listForm ts
  | m, ts => (readOperands ts).bind (numberForm m)

/-- The line a list of tokens is; nothing for an empty line. -/
def parseLine : List AsmToken → Except AsmError (Option AsmLine)
  | [] => .ok none
  | .name cs :: ts =>
    match (mnemonicOf cs).bind (fun m => lineForm m ts) with
    | some l => .ok (some l)
    | none => .error .badLine
  | _ => .error .badLine

/-- The lines of a text. -/
def splitLines : List Char → List (List Char)
  | [] => [[]]
  | c :: cs =>
    match splitLines cs with
    | l :: ls => if c == '\n' then [] :: l :: ls else (c :: l) :: ls
    | [] => [[]]

/-- The command words of one line of text. -/
def assembleLine (cs : List Char) : Except AsmError (List Word) := do
  match ← parseLine (← lexLine [] cs) with
  | some l => asmWords l
  | none => .ok []

/-- The command words of a text, one command per line (rule R93). -/
def assemble (text : List Char) : Except AsmError (List Word) := do
  .ok (← (splitLines text).mapM assembleLine).flatten

end Sys2Proof.Machine
end

