-- ==== Sys2Proof/Safety.lean ====
section
/-! DEFINITION. The terms the claims are stated in: a good state, an ended run, a stuck run, a run of several commands, and what it means
for memories to differ in one range only (rules R22, R24, R62, R89, R90, R245). -/

namespace Sys2Proof.Machine

/-- The counters of a context that a computation can produce (rules R22, R24): `LEN` is a multiple of 8 and `IDX = (LEN / 8) mod 64`. -/
abbrev CountersAgree (c : Ctx) : Prop := bitLength c % 8 = 0 ∧ c.idx.val = bitLength c / 8 % 64

/-- A word the response port can carry (rules R89, R200, R209): bits 31:12 zero, status 0 to 7, value 0 unless the status is OK. -/
abbrev LegalResponse (w : Word) : Prop :=
  w.toNat < 2 ^ 12 ∧ responseStatus w ≤ 7 ∧ (responseStatus w ≠ 0 → responseValue w = 0)

/-- The invariant of the machine: memory is canonical, the counters agree while a computation is in progress, and every response produced
is a legal one. -/
abbrev Inv (s : State) : Prop :=
  Memory.wf s.mem = true ∧ (s.phase = .active → CountersAgree s.hs) ∧ ∀ w ∈ s.rspq, LegalResponse w

/-- The run has ended: every word is consumed (rule R245). -/
abbrev State.Ended (s : State) : Prop := s.cmdq = []

/-- The run is stuck: the words left are the beginning of a command that lacks operand words (rules R90, R245, R247 b). -/
abbrev State.Stuck (s : State) : Prop := s.cmdq ≠ [] ∧ s.fetch = .incomplete

/-- Every byte outside `[p, p + n)` reads in `m'` as it reads in `m`. -/
def SameOutside (m m' : Memory) (p n : Nat) : Prop := ∀ a, ¬(p ≤ a ∧ a < p + n) → m'.read a = m.read a

/-- Commands executed one after the other, each to completion before the next begins (rule R62 a). -/
def execAll : List Instr → State → Host.Outcome State Fault Refusal
  | [], s => .next s
  | i :: is, s =>
    match exec i s with
    | .next t => execAll is t
    | .fault f => .fault f
    | .refused r => .refused r

/-- A number of steps, one after the other (rule R30). -/
def runSteps : Nat → State → Host.Outcome State Fault Refusal
  | 0, s => .next s
  | n + 1, s =>
    match step s with
    | .next t => runSteps n t
    | .fault f => .fault f
    | .refused r => .refused r

end Sys2Proof.Machine
end

