-- ==== Sys2Proof/Certificates/Slice0/Obligations.lean ====
section
/-! DEFINITION. The statements for the provers. Each docstring names the rule of spec/ the statement follows. A response word is written
out: `0` is (OK, 0), and `0x100` to `0x700` are the failures of table T-R200 with value 0. -/

open Sys2Proof Sys2Proof.Machine

/-! Encoding -/

/-- Rules R81 to R86: a well-formed command's words decode to that command, and the words behind it are left alone. -/
def Obligations.DecodeOfEncodeIsTheCommand : Prop :=
  ∀ (i : Instr) (rest : List Word), i.WellFormed = true → decode (encode i ++ rest) = .command i rest

/-- Rules R81 to R87: the only words that decode to a command are its encoding, and the command is well formed. -/
def Obligations.DecodedWordsAreTheEncoding : Prop :=
  ∀ (ws rest : List Word) (i : Instr), decode ws = .command i rest → i.WellFormed = true ∧ ws = encode i ++ rest

/-- Rule R81: the places of the four fields, that `op` selects the command, and that a header whose reserved field is not zero selects
none. -/
def Obligations.HeaderLayout : Prop :=
  ∀ h : Word,
    h.toNat = (fieldOp h).toNat + (fieldA h).toNat * 2 ^ 8 + (fieldB h).toNat * 2 ^ 16 + (fieldZ h).toNat * 2 ^ 24 ∧
    fieldOp h = h.extractLsb' 0 8 ∧ fieldA h = h.extractLsb' 8 8 ∧ fieldB h = h.extractLsb' 16 8 ∧ fieldZ h = h.extractLsb' 24 8 ∧
    (fieldZ h ≠ 0 → ∃ why, selectCommand h = .error why) ∧
    (∀ o, selectCommand h = .ok o → fieldOp h = opcodeByte o)

/-- Rule R86, table T-R86: a header selects a row iff it agrees with the row's `match` under the row's `mask`; an `op` value outside the
table is illegal; and the fields and the number of operand words of the command that is decoded. -/
def Obligations.HeaderSelectsRowByMask : Prop :=
  ∀ h : Word,
    (selectCommand h = .ok .sha1Init ↔ h &&& 0xFFFFFFFF = 0x00000001) ∧
    (selectCommand h = .ok .sha1Update ↔ h &&& 0xFFFFFFFF = 0x00000002) ∧
    (selectCommand h = .ok .sha1Final ↔ h &&& 0xFFFFFFFF = 0x00000003) ∧
    (selectCommand h = .ok .hmac ↔ h &&& 0xFFFF00FF = 0x00000004) ∧
    (selectCommand h = .ok .hmacv ↔ h &&& 0xFF0000FF = 0x00000005) ∧
    (selectCommand h = .ok .auth ↔ h &&& 0xFF0000FF = 0x00000006) ∧
    (selectCommand h = .ok .verify ↔ h &&& 0xFFFF00FF = 0x00000007) ∧
    ((fieldOp h).toNat = 0 ∨ 8 ≤ (fieldOp h).toNat → ∃ why, selectCommand h = .error why) ∧
    ∀ (i : Instr) (ws rest : List Word), decode (h :: ws) = .command i rest →
      match i with
      | .sha1Init => fieldOp h = 1 ∧ rest = ws
      | .sha1Update _ _ => fieldOp h = 2 ∧ rest = ws.drop 2
      | .sha1Final _ => fieldOp h = 3 ∧ rest = ws.drop 1
      | .hmac klen _ _ _ _ => fieldOp h = 4 ∧ klen = h.extractLsb' 8 8 ∧ rest = ws.drop 4
      | .hmacv klen _ _ frags =>
        fieldOp h = 5 ∧ klen = h.extractLsb' 8 8 ∧ frags.length = (h.extractLsb' 16 8).toNat ∧ rest = ws.drop (2 + 2 * frags.length)
      | .auth size cap _ _ => fieldOp h = 6 ∧ size = h.extractLsb' 8 8 ∧ cap = h.extractLsb' 16 8 ∧ rest = ws.drop 2
      | .verify size _ _ => fieldOp h = 7 ∧ size = h.extractLsb' 8 8 ∧ rest = ws.drop 2

/-- Rule R87: which headers are illegal, what a step does with one, that every other header starts a command once its operand words are
there, whatever they are, and that a key length above 64 is refused in execution and not in decoding. -/
def Obligations.IllegalHeaderIffReserved : Prop :=
  ∀ h : Word,
    ((∃ why, selectCommand h = .error why) ↔
      (fieldZ h ≠ 0 ∨ (fieldOp h).toNat = 0 ∨ 8 ≤ (fieldOp h).toNat ∨
        (((fieldOp h).toNat = 1 ∨ (fieldOp h).toNat = 2 ∨ (fieldOp h).toNat = 3) ∧ (fieldA h ≠ 0 ∨ fieldB h ≠ 0)) ∨
        (((fieldOp h).toNat = 4 ∨ (fieldOp h).toNat = 7) ∧ fieldB h ≠ 0))) ∧
    ((∃ why, selectCommand h = .error why) ↔ ∀ o ∈ allOpcodes, h &&& opcodeMask o ≠ opcodeMatch o) ∧
    (∀ (s : State) (rest : List Word), s.cmdq = h :: rest → (∃ why, selectCommand h = .error why) →
      step s = .next { s with cmdq := rest, rspq := s.rspq ++ [0x300] }) ∧
    (∀ (o : Opcode) (ws : List Word), selectCommand h = .ok o → commandLength h ≤ (h :: ws).length →
      ∃ i rest, decode (h :: ws) = .command i rest) ∧
    (∀ (s : State) (ws rest : List Word) (klen : Byte) (msgPtr msgLen keyPtr dstPtr : Word), 64 < klen.toNat →
      decode (h :: ws) = .command (.hmac klen msgPtr msgLen keyPtr dstPtr) rest → s.cmdq = h :: ws →
      step s = .next { s with cmdq := rest, rspq := s.rspq ++ [0x500] }) ∧
    ∀ (s : State) (ws rest : List Word) (klen : Byte) (keyPtr dstPtr : Word) (frags : List Fragment), 64 < klen.toNat →
      decode (h :: ws) = .command (.hmacv klen keyPtr dstPtr frags) rest → s.cmdq = h :: ws →
      step s = .next { s with cmdq := rest, rspq := s.rspq ++ [0x500] }

/-- Rule R84: the length of each command in words, and the place of the next header. -/
def Obligations.CommandLengths : Prop :=
  (∀ h : Word,
    (selectCommand h = .ok .sha1Init → commandLength h = 1) ∧ (selectCommand h = .ok .sha1Update → commandLength h = 3) ∧
    (selectCommand h = .ok .sha1Final → commandLength h = 2) ∧ (selectCommand h = .ok .hmac → commandLength h = 5) ∧
    (selectCommand h = .ok .hmacv →
      commandLength h = 3 + 2 * (fieldB h).toNat ∧ 3 ≤ commandLength h ∧ commandLength h ≤ 513) ∧
    (selectCommand h = .ok .auth → commandLength h = 3) ∧ (selectCommand h = .ok .verify → commandLength h = 3) ∧
    ((∃ why, selectCommand h = .error why) → commandLength h = 1)) ∧
  (∀ (h : Word) (ws rest : List Word) (i : Instr), decode (h :: ws) = .command i rest → rest = (h :: ws).drop (commandLength h)) ∧
  (∀ (h : Word) (ws rest : List Word) (why : Illegal), decode (h :: ws) = .illegal why rest →
    rest = (h :: ws).drop (commandLength h))

/-- Rule R95, which the spec marks as derived from R81, R83 and R89: the worked encodings and the worked responses. -/
def Obligations.WorkedEncodings : Prop :=
  decode [0x00000001] = .command .sha1Init [] ∧
  decode [0x00000002, 0x00001000, 0x00000003] = .command (.sha1Update 0x1000 3) [] ∧
  decode [0x00000003, 0x00002000] = .command (.sha1Final 0x2000) [] ∧
  decode [0x00001404, 0x00001000, 0x00000008, 0x00003000, 0x00002000] = .command (.hmac 20 0x1000 8 0x3000 0x2000) [] ∧
  decode [0x00021005, 0x00003000, 0x00002000, 0x00001000, 0x00000004, 0x00001100, 0x00000004] =
    .command (.hmacv 16 0x3000 0x2000 [{ ptr := 0x1000, len := 4 }, { ptr := 0x1100, len := 4 }]) [] ∧
  decode [0x00200506, 0x00001000, 0x00003000] = .command (.auth 5 32 0x1000 0x3000) [] ∧
  decode [0x00000F07, 0x00001000, 0x00003000] = .command (.verify 15 0x1000 0x3000) [] ∧
  responseWord .ok 15 = 0x0000000F ∧ responseWord .capacityExceeded 0 = 0x00000100 ∧ responseWord .verificationFailed 0 = 0x00000200

/-- Rules R89, R200: the layout of a response word and the number of each status. -/
def Obligations.ResponseWordLayout : Prop :=
  (∀ (st : Status) (v : Byte),
    (responseWord st v).toNat / 2 ^ 12 = 0 ∧ responseStatus (responseWord st v) = statusCode st ∧
    responseValue (responseWord st v) = v.toNat) ∧
  statusCode .ok = 0 ∧ statusCode .capacityExceeded = 1 ∧ statusCode .verificationFailed = 2 ∧ statusCode .illegalCommand = 3 ∧
  statusCode .sequenceError = 4 ∧ statusCode .keyTooLong = 5 ∧ statusCode .memFault = 6 ∧ statusCode .lengthOverflow = 7

/-- Rule R93: the assembler accepts a line exactly when every immediate is at most 255, every pointer and length is below `2^32`, and a
fragment list has at most 255 entries; a key length of 65 or more is accepted. That `.word` takes any word is log entry 9. -/
def Obligations.AssemblerAcceptsExactlyTheRanges : Prop :=
  ∀ l : AsmLine,
    (∃ ws, asmWords l = .ok ws) ↔
      match l with
      | .sha1Init => True
      | .sha1Update srcPtr srcLen => srcPtr < 2 ^ 32 ∧ srcLen < 2 ^ 32
      | .sha1Final dstPtr => dstPtr < 2 ^ 32
      | .hmac msgPtr msgLen keyPtr klen dstPtr =>
        msgPtr < 2 ^ 32 ∧ msgLen < 2 ^ 32 ∧ keyPtr < 2 ^ 32 ∧ klen ≤ 255 ∧ dstPtr < 2 ^ 32
      | .hmacv frags keyPtr klen dstPtr =>
        frags.length ≤ 255 ∧ (∀ f ∈ frags, f.1 < 2 ^ 32 ∧ f.2 < 2 ^ 32) ∧ keyPtr < 2 ^ 32 ∧ klen ≤ 255 ∧ dstPtr < 2 ^ 32
      | .auth bufPtr size cap keyPtr => bufPtr < 2 ^ 32 ∧ size ≤ 255 ∧ cap ≤ 255 ∧ keyPtr < 2 ^ 32
      | .verify bufPtr size keyPtr => bufPtr < 2 ^ 32 ∧ size ≤ 255 ∧ keyPtr < 2 ^ 32
      | .sha1 srcPtr srcLen dstPtr => srcPtr < 2 ^ 32 ∧ srcLen < 2 ^ 32 ∧ dstPtr < 2 ^ 32
      | .sha1Empty dstPtr => dstPtr < 2 ^ 32
      | .word w => w < 2 ^ 32

/-- Rules R93, R94: for each form of an accepted line, its operands in the textual order on the left, the list written out of the commands
it stands for (three for `SHA1`, two for `SHA1_EMPTY`), and the words written out of table T-R83; the words are the commands' encodings in
order, and decode to them, whatever words follow. That `.word` gives its one raw word is log entry 9. -/
def Obligations.AssembledLinesDecode : Prop :=
  (∀ (w : Nat) (ws : List Word), asmWords (.word w) = .ok ws → ws = [BitVec.ofNat 32 w]) ∧
  ∀ (l : AsmLine) (ws rest : List Word), (∀ w, l ≠ .word w) → asmWords l = .ok ws →
    ∃ is : List Instr,
      is = (match l with
        | .sha1Init => [.sha1Init]
        | .sha1Update srcPtr srcLen => [.sha1Update (BitVec.ofNat 32 srcPtr) (BitVec.ofNat 32 srcLen)]
        | .sha1Final dstPtr => [.sha1Final (BitVec.ofNat 32 dstPtr)]
        | .hmac msgPtr msgLen keyPtr klen dstPtr =>
          [.hmac (BitVec.ofNat 8 klen) (BitVec.ofNat 32 msgPtr) (BitVec.ofNat 32 msgLen) (BitVec.ofNat 32 keyPtr) (BitVec.ofNat 32 dstPtr)]
        | .hmacv frags keyPtr klen dstPtr =>
          [.hmacv (BitVec.ofNat 8 klen) (BitVec.ofNat 32 keyPtr) (BitVec.ofNat 32 dstPtr)
            (frags.map (fun f => { ptr := BitVec.ofNat 32 f.1, len := BitVec.ofNat 32 f.2 }))]
        | .auth bufPtr size cap keyPtr =>
          [.auth (BitVec.ofNat 8 size) (BitVec.ofNat 8 cap) (BitVec.ofNat 32 bufPtr) (BitVec.ofNat 32 keyPtr)]
        | .verify bufPtr size keyPtr => [.verify (BitVec.ofNat 8 size) (BitVec.ofNat 32 bufPtr) (BitVec.ofNat 32 keyPtr)]
        | .sha1 srcPtr srcLen dstPtr =>
          [.sha1Init, .sha1Update (BitVec.ofNat 32 srcPtr) (BitVec.ofNat 32 srcLen), .sha1Final (BitVec.ofNat 32 dstPtr)]
        | .sha1Empty dstPtr => [.sha1Init, .sha1Final (BitVec.ofNat 32 dstPtr)]
        | .word _ => []) ∧
      ws = (match l with
        | .sha1Init => [0x01]
        | .sha1Update srcPtr srcLen => [0x02, BitVec.ofNat 32 srcPtr, BitVec.ofNat 32 srcLen]
        | .sha1Final dstPtr => [0x03, BitVec.ofNat 32 dstPtr]
        | .hmac msgPtr msgLen keyPtr klen dstPtr =>
          [BitVec.ofNat 32 (0x04 + klen * 2 ^ 8), BitVec.ofNat 32 msgPtr, BitVec.ofNat 32 msgLen, BitVec.ofNat 32 keyPtr,
            BitVec.ofNat 32 dstPtr]
        | .hmacv frags keyPtr klen dstPtr =>
          BitVec.ofNat 32 (0x05 + klen * 2 ^ 8 + frags.length * 2 ^ 16) :: BitVec.ofNat 32 keyPtr :: BitVec.ofNat 32 dstPtr ::
            frags.flatMap (fun f => [BitVec.ofNat 32 f.1, BitVec.ofNat 32 f.2])
        | .auth bufPtr size cap keyPtr =>
          [BitVec.ofNat 32 (0x06 + size * 2 ^ 8 + cap * 2 ^ 16), BitVec.ofNat 32 bufPtr, BitVec.ofNat 32 keyPtr]
        | .verify bufPtr size keyPtr => [BitVec.ofNat 32 (0x07 + size * 2 ^ 8), BitVec.ofNat 32 bufPtr, BitVec.ofNat 32 keyPtr]
        | .sha1 srcPtr srcLen dstPtr => [0x01, 0x02, BitVec.ofNat 32 srcPtr, BitVec.ofNat 32 srcLen, 0x03, BitVec.ofNat 32 dstPtr]
        | .sha1Empty dstPtr => [0x01, 0x03, BitVec.ofNat 32 dstPtr]
        | .word _ => []) ∧
      asmCommands l = .ok is ∧ ws = is.flatMap encode ∧ (∀ i ∈ is, i.WellFormed = true) ∧
      ∀ n i, is[n]? = some i →
        decode ((is.drop n).flatMap encode ++ rest) = .command i ((is.drop (n + 1)).flatMap encode ++ rest)

/-! The step -/

/-- Rule R30: where the words at the front of the stream decode to a command, a step consumes them and is that command's `exec`. -/
def Obligations.StepRunsDecodedCommand : Prop :=
  ∀ (s : State) (i : Instr) (rest : List Word), decode s.cmdq = .command i rest → step s = exec i { s with cmdq := rest }

/-- Rule R88: an illegal header consumes exactly one word, whatever follows it, and the word after it is the next header. -/
def Obligations.IllegalHeaderConsumesOneWord : Prop :=
  ∀ (s : State) (h : Word) (rest : List Word) (why : Illegal), s.cmdq = h :: rest → selectCommand h = .error why →
    step s = .next { s with cmdq := rest, rspq := s.rspq ++ [0x300] }

/-- Rule R90: while a command's words have not all arrived the block waits, and once they have it executes. That a waiting block answers
its own state is log entry 5. -/
def Obligations.IncompleteCommandWaits : Prop :=
  ∀ (s : State) (i : Instr) (k : Nat), i.WellFormed = true → s.cmdq = (encode i).take k →
    (k < (encode i).length → step s = .next s) ∧
    step (s.supply ((encode i).drop k)) = exec i { s with cmdq := [] }

/-- Rules R88, R90: a step either waits (log entry 5) or consumes words from the front of the stream and appends exactly one response. -/
def Obligations.StepAnswersOnceOrWaits : Prop :=
  ∀ s : State,
    (s.fetch = .incomplete ∧ step s = .next s) ∨
    ∃ (t : State) (used : List Word) (w : Word),
      step s = .next t ∧ used ≠ [] ∧ s.cmdq = used ++ t.cmdq ∧ t.rspq = s.rspq ++ [w] ∧ LegalResponse w

/-- Rules R30, R62 a, R92: the steps on a stream of encoded commands are those commands executed one after the other, in stream order, with
the words behind them left alone. -/
def Obligations.StreamExecutesInOrder : Prop :=
  ∀ (is : List Instr) (s : State) (rest : List Word), (∀ i ∈ is, i.WellFormed = true) → s.cmdq = is.flatMap encode ++ rest →
    runSteps is.length s = execAll is { s with cmdq := rest } ∧
    ∃ t ws, runSteps is.length s = .next t ∧ t.cmdq = rest ∧ t.rspq = s.rspq ++ ws ∧ ws.length = is.length

/-- Rule R251, which the spec marks as derived from R10: every command of every operand value, in every state, ends in a next state. That a
step ends in one too is the model's inference: where the block waits for words it answers its own state (log entry 5), and there is no fault
and no refusal (log entry 13). -/
def Obligations.EveryCommandTerminates : Prop :=
  (∀ (i : Instr) (s : State), ∃ t, exec i s = .next t) ∧ ∀ s : State, ∃ t, step s = .next t

/-- Rules R34, R230, R231: what reset leaves, where the spec gives a value. That a waiting block answers its own state is log entry 5. -/
def Obligations.ResetLeaves : Prop :=
  State.reset.phase = .idle ∧ State.reset.cmdq = [] ∧ State.reset.rspq = [] ∧ step State.reset = .next State.reset

/-- Rule R230: the platform's reset, in every state. `HS` takes a free value (log entry 2), so nothing is stated of it. That a waiting block
answers its own state is log entry 5. -/
def Obligations.PlatformResetEffect : Prop :=
  ∀ s : State,
    s.platformReset.phase = .idle ∧ s.platformReset.cmdq = [] ∧ s.platformReset.rspq = [] ∧ s.platformReset.mem = s.mem ∧
    s.platformReset.platform = s.platform ∧ step s.platformReset = .next s.platformReset

/-- The invariant holds after reset. -/
def Obligations.InvariantHoldsAtReset : Prop := Inv State.reset

/-- Rules R22, R24, R89, R200 and the canonical form of memory: every step keeps the invariant, from every state that meets it. -/
def Obligations.InvariantKeptByStep : Prop := ∀ s t : State, Inv s → step s = .next t → Inv t

/-! What every command changes and what it depends on -/

/-- Rule R201: a command that fails changes nothing but the two streams, whole. -/
def Obligations.FailureChangesNothing : Prop :=
  (∀ (s t : State) (i : Instr) (rest : List Word) (w : Word), decode s.cmdq = .command i rest → step s = .next t →
    t.rspq = s.rspq ++ [w] → responseStatus w ≠ 0 →
      t = { s with cmdq := rest, rspq := s.rspq ++ [w] } ∧ responseValue w = 0) ∧
  ∀ (s : State) (why : Illegal) (rest : List Word), decode s.cmdq = .illegal why rest →
    step s = .next { s with cmdq := rest, rspq := s.rspq ++ [0x300] }

/-- Rule R58, which the spec marks as derived from the commands' rules, the frame of all seven commands: streams, platform, and every byte outside the ranges of table T-R58. -/
def Obligations.CommandsWriteOnlyTheirRanges : Prop :=
  ∀ (i : Instr) (s t : State), exec i s = .next t →
    t.cmdq = s.cmdq ∧ t.platform = s.platform ∧ (∃ w, t.rspq = s.rspq ++ [w]) ∧
    ∀ a, (∀ r ∈ writeRanges i, inRange r a = false) → t.mem.read a = s.mem.read a

/-- Rule R58, which the spec marks as derived from the commands' rules: a command depends on no byte outside the ranges of table T-R58. Two states that agree on those bytes and on everything but
memory get the same response and the same registers, and any byte that was the same in both is the same in both after. -/
def Obligations.CommandsReadOnlyTheirRanges : Prop :=
  ∀ (i : Instr) (s : State) (m : Memory),
    (∀ r ∈ readRanges i, ∀ a, inRange r a = true → m.read a = s.mem.read a) →
    ∃ t t', exec i s = .next t ∧ exec i { s with mem := m } = .next t' ∧ t'.rspq = t.rspq ∧ t'.hs = t.hs ∧ t'.phase = t.phase ∧
      ∀ a, m.read a = s.mem.read a → t'.mem.read a = t.mem.read a

/-- Rule R26: HMAC, HMACV, AUTH and VERIFY neither read nor write `HS` and `PHASE`. -/
def Obligations.KeyedCommandsIgnoreHashState : Prop :=
  ∀ (i : Instr) (s t : State) (c : Ctx) (p : Phase),
    (match i with
      | .sha1Init => False
      | .sha1Update _ _ => False
      | .sha1Final _ => False
      | .hmac _ _ _ _ _ => True
      | .hmacv _ _ _ _ => True
      | .auth _ _ _ _ => True
      | .verify _ _ _ => True) →
    exec i s = .next t →
      t.hs = s.hs ∧ t.phase = s.phase ∧ exec i { s with hs := c, phase := p } = .next { t with hs := c, phase := p }

/-- Rule R27: while `PHASE = IDLE` the fields of `HS` are unobservable. The two runs may differ afterwards in `HS` only, and not in it
once a command has made `PHASE` active. -/
def Obligations.IdleHashStateUnobservable : Prop :=
  ∀ (i : Instr) (s t : State) (c : Ctx), s.phase = .idle → exec i s = .next t →
    ∃ t', exec i { s with hs := c } = .next t' ∧ t' = { t with hs := t'.hs } ∧ (t.phase = .active → t'.hs = t.hs)

/-- Rule R23, the sentence the spec marks as derived from R122 and R123: the bytes of the block from `IDX` on reach no digest. -/
def Obligations.StaleBlockBytesUnobservable : Prop :=
  ∀ (c c' : Ctx) (m : List Byte), c'.h = c.h → c'.lenLo = c.lenLo → c'.lenHi = c.lenHi → c'.idx = c.idx →
    (∀ i, i < c.idx.val → blockByte c'.blk i = blockByte c.blk i) →
    ctxDigest (ctxUpdate c' m) = ctxDigest (ctxUpdate c m)

/-! Memory -/

/-- Rules R53, R54, R60: bytes written are the bytes read back, in ascending address order, and every other address is left alone. -/
def Obligations.BytesWrittenAreRead : Prop :=
  ∀ (m : Memory) (p : Nat) (bs : List Byte),
    (m.writeBytes p bs).readBytes p bs.length = bs ∧ SameOutside m (m.writeBytes p bs) p bs.length

/-- Rule R56: range admission, for reading and for writing. -/
def Obligations.RangeAdmission : Prop :=
  ∀ (s : State) (p n : Nat),
    (readOk s p n = true ↔ n = 0 ∨ (p + n ≤ 2 ^ 32 ∧ ∀ a, p ≤ a → a < p + n → covered s.platform.readable a = true)) ∧
    (writeOk s p n = true ↔ n = 0 ∨ (p + n ≤ 2 ^ 32 ∧ ∀ a, p ≤ a → a < p + n → covered s.platform.writable a = true))

/-! HashEngine -/

/-- Rule R121. -/
def Obligations.FreshContext : Prop :=
  ctxInit.h.h0 = 0x67452301 ∧ ctxInit.h.h1 = 0xEFCDAB89 ∧ ctxInit.h.h2 = 0x98BADCFE ∧ ctxInit.h.h3 = 0x10325476 ∧
  ctxInit.h.h4 = 0xC3D2E1F0 ∧ ctxInit.lenLo = 0 ∧ ctxInit.lenHi = 0 ∧ ctxInit.idx = 0 ∧ ∀ i, blockByte ctxInit.blk i = 0

/-- Rules R124, R125, with the byte order of rules R7 and R61 a: the 80 words of the schedule. -/
def Obligations.ScheduleOfABlock : Prop :=
  ∀ b : Block,
    (schedule b).length = 80 ∧
    (∀ t, t < 16 → (schedule b).getD t 0 =
      be32 (blockByte b (4 * t)) (blockByte b (4 * t + 1)) (blockByte b (4 * t + 2)) (blockByte b (4 * t + 3))) ∧
    (∀ t j, t < 16 → j < 4 → ((schedule b).getD t 0).extractLsb' (24 - 8 * j) 8 = blockByte b (4 * t + j)) ∧
    ∀ t, 16 ≤ t → t < 80 → (schedule b).getD t 0 =
      rotl 1 ((schedule b).getD (t - 3) 0 ^^^ (schedule b).getD (t - 8) 0 ^^^ (schedule b).getD (t - 14) 0 ^^^
        (schedule b).getD (t - 16) 0)

/-- Rules R126, R127: the function and the constant of each of the 80 rounds. The spec marks the functions as taken from general knowledge
(G1) and the order of the constants as its own reading. -/
def Obligations.StageFunctionsAndConstants : Prop :=
  ∀ (t : Nat) (b c d : Word),
    (t < 20 → stageFunction t b c d = (b &&& c) ||| (~~~b &&& d) ∧ stageConstant t = 0x5A827999) ∧
    (20 ≤ t → t < 40 → stageFunction t b c d = b ^^^ c ^^^ d ∧ stageConstant t = 0x6ED9EBA1) ∧
    (40 ≤ t → t < 60 → stageFunction t b c d = (b &&& c) ||| (b &&& d) ||| (c &&& d) ∧ stageConstant t = 0x8F1BBCDC) ∧
    (60 ≤ t → t < 80 → stageFunction t b c d = b ^^^ c ^^^ d ∧ stageConstant t = 0xCA62C1D6)

/-- Rules R128, R129; the spec marks the round step as taken from general knowledge (G2): `compress` is the 80 rounds in order, each one the chain of rule R128, and then the five additions. -/
def Obligations.CompressIsEightyRounds : Prop :=
  (∀ (t : Nat) (w a b c d e : Word),
    hashRound t w { a := a, b := b, c := c, d := d, e := e } =
      { a := a.rotateLeft 5 + stageFunction t b c d + e + stageConstant t + w, b := a, c := b.rotateLeft 30, d := c, e := d }) ∧
  ∀ (h : HashWords) (b : Block) (r : Working),
    r = (List.range 80).foldl (fun r t => hashRound t ((schedule b).getD t 0) r)
      { a := h.h0, b := h.h1, c := h.h2, d := h.h3, e := h.h4 } →
    compress h b = { h0 := h.h0 + r.a, h1 := h.h1 + r.b, h2 := h.h2 + r.c, h3 := h.h3 + r.d, h4 := h.h4 + r.e }

/-- Rules R22, R122: each byte adds 8 to the counter, the high half taking the carry, and so the counter counts the bits absorbed. -/
def Obligations.CounterCountsBits : Prop :=
  (∀ (c : Ctx) (x : Byte),
    (ctxUpdate c [x]).lenLo = c.lenLo + 8 ∧
    (ctxUpdate c [x]).lenHi = if (c.lenLo + 8).toNat < 8 then c.lenHi + 1 else c.lenHi) ∧
  ∀ (c : Ctx) (m : List Byte), bitLength c % 8 = 0 → bitLength c + 8 * m.length < 2 ^ 64 →
    bitLength (ctxUpdate c m) = bitLength c + 8 * m.length

/-- Rules R23, R24, R122: a byte goes to `BLK[IDX]` and leaves the rest of the block alone; `H` changes exactly when `IDX` reaches 64, and
then by one compression of the full block; and so, from the fresh context, `BLK[0..IDX-1]` are the bytes since the last compression in
arrival order, and `H` is the fold over the full blocks of the message. What is said here of the bytes from the new `IDX` on (the bytes kept
above it, and the whole block once a compression has set it to 0) is the model's choice, log entry 7 (DEDUCED): rule R23 gives those bytes no
meaning and U5 of 93_implementation_defined.md calls them unspecified at any time. -/
def Obligations.FillIndexAdvances : Prop :=
  (∀ (c : Ctx) (m : List Byte), (ctxUpdate c m).idx.val = (c.idx.val + m.length) % 64) ∧
  (∀ (c : Ctx) (x : Byte),
    blockByte (ctxUpdate c [x]).blk c.idx.val = x ∧
    (∀ i, i ≠ c.idx.val → blockByte (ctxUpdate c [x]).blk i = blockByte c.blk i) ∧
    (c.idx.val < 63 → (ctxUpdate c [x]).h = c.h ∧ (ctxUpdate c [x]).idx.val = c.idx.val + 1) ∧
    (c.idx.val = 63 → (ctxUpdate c [x]).h = compress c.h (ctxUpdate c [x]).blk ∧ (ctxUpdate c [x]).idx.val = 0)) ∧
  (∀ (m : List Byte) (i : Nat), i < m.length % 64 →
    blockByte (ctxUpdate ctxInit m).blk i = m.getD (64 * (m.length / 64) + i) 0) ∧
  ∀ m : List Byte, (ctxUpdate ctxInit m).h = (List.range (m.length / 64)).foldl (fun h k => compress h (messageBlock m k)) ctxInit.h

/-- Rules R61 b, R61 c, R123: the block or the two blocks `ctx_final` compresses, byte by byte, with the length big-endian in the last
8 bytes, and the bytes of the digest, the most significant byte of `H[0]` first. -/
def Obligations.PaddingOfAContext : Prop :=
  ∀ c : Ctx,
    (c.idx.val ≤ 55 → ∃ b : Block, finalWords c = compress c.h b ∧
      (∀ i, i < c.idx.val → blockByte b i = blockByte c.blk i) ∧ blockByte b c.idx.val = 0x80 ∧
      (∀ i, c.idx.val < i → i < 56 → blockByte b i = 0) ∧
      ∀ j, j < 4 → blockByte b (56 + j) = c.lenHi.extractLsb' (24 - 8 * j) 8 ∧
        blockByte b (60 + j) = c.lenLo.extractLsb' (24 - 8 * j) 8) ∧
    (56 ≤ c.idx.val → ∃ b b' : Block, finalWords c = compress (compress c.h b) b' ∧
      (∀ i, i < c.idx.val → blockByte b i = blockByte c.blk i) ∧ blockByte b c.idx.val = 0x80 ∧
      (∀ i, c.idx.val < i → i < 64 → blockByte b i = 0) ∧ (∀ i, i < 56 → blockByte b' i = 0) ∧
      ∀ j, j < 4 → blockByte b' (56 + j) = c.lenHi.extractLsb' (24 - 8 * j) 8 ∧
        blockByte b' (60 + j) = c.lenLo.extractLsb' (24 - 8 * j) 8) ∧
    (ctxDigest c).length = 20 ∧
    ∀ j, j < 4 →
      (ctxDigest c).getD j 0 = (finalWords c).h0.extractLsb' (24 - 8 * j) 8 ∧
      (ctxDigest c).getD (4 + j) 0 = (finalWords c).h1.extractLsb' (24 - 8 * j) 8 ∧
      (ctxDigest c).getD (8 + j) 0 = (finalWords c).h2.extractLsb' (24 - 8 * j) 8 ∧
      (ctxDigest c).getD (12 + j) 0 = (finalWords c).h3.extractLsb' (24 - 8 * j) 8 ∧
      (ctxDigest c).getD (16 + j) 0 = (finalWords c).h4.extractLsb' (24 - 8 * j) 8

/-- Rule R136, the chunking law, field by field; the spec marks it as derived from R122. -/
def Obligations.ChunkingLaw : Prop := ∀ (c : Ctx) (m n : List Byte), ctxUpdate (ctxUpdate c m) n = ctxUpdate c (m ++ n)

/-- Rule R137, which the spec marks as derived from R121 to R123: the streaming engine computes SHA-1's closed form. The closed form is written
out: `p` is the message, `0x80`, the fewest zeros that make whole blocks and the bit length, most significant byte first; `h` is the fold of
`compress` over the blocks of `p`; and the digest is the bytes of `h`, the most significant byte of the first word first (rules R61 b, R61 c,
R123). -/
def Obligations.StreamingEqualsClosedForm : Prop :=
  ∀ m : List Byte, m.length < 2 ^ 61 →
    sha1 m = sha1ClosedForm m ∧
    ∃ (p : List Byte) (h : HashWords),
      p.length % 64 = 0 ∧ m.length + 9 ≤ p.length ∧ p.length < m.length + 9 + 64 ∧
      (∀ i, i < m.length → p.getD i 0 = m.getD i 0) ∧ p.getD m.length 0 = 0x80 ∧
      (∀ i, m.length < i → i < p.length - 8 → p.getD i 0 = 0) ∧
      (∀ j, j < 8 → (p.getD (p.length - 8 + j) 0).toNat = 8 * m.length / 2 ^ (8 * (7 - j)) % 2 ^ 8) ∧
      h = (List.range (p.length / 64)).foldl (fun h k => compress h (messageBlock p k))
        { h0 := 0x67452301, h1 := 0xEFCDAB89, h2 := 0x98BADCFE, h3 := 0x10325476, h4 := 0xC3D2E1F0 } ∧
      (∀ k i, i < 64 → blockByte (messageBlock p k) i = p.getD (64 * k + i) 0) ∧
      (sha1 m).length = 20 ∧
      ∀ j, j < 4 →
        (sha1 m).getD j 0 = h.h0.extractLsb' (24 - 8 * j) 8 ∧ (sha1 m).getD (4 + j) 0 = h.h1.extractLsb' (24 - 8 * j) 8 ∧
        (sha1 m).getD (8 + j) 0 = h.h2.extractLsb' (24 - 8 * j) 8 ∧ (sha1 m).getD (12 + j) 0 = h.h3.extractLsb' (24 - 8 * j) 8 ∧
        (sha1 m).getD (16 + j) 0 = h.h4.extractLsb' (24 - 8 * j) 8

/-- Rule R137, which the spec marks as derived from R121 to R123: SHA1_INIT, then SHA1_UPDATE commands whose ranges concatenate to a message, then SHA1_FINAL, leave the message's SHA-1 at
the destination. -/
def Obligations.CommandSequenceHashes : Prop :=
  ∀ (s : State) (frags : List Fragment) (dstPtr : Word),
    fragmentsOk s frags = true → writeOk s dstPtr.toNat 20 = true →
    (frags.map (readFragment s.mem)).flatten.length < 2 ^ 61 →
    ∃ t, execAll (.sha1Init :: frags.map (fun f => .sha1Update f.ptr f.len) ++ [.sha1Final dstPtr]) s = .next t ∧
      t.mem.readBytes dstPtr.toNat 20 = sha1 (frags.map (readFragment s.mem)).flatten ∧
      SameOutside s.mem t.mem dstPtr.toNat 20 ∧ t.rspq = s.rspq ++ List.replicate (frags.length + 2) 0 ∧ t.phase = .idle

/-- Rule R130: SHA1_INIT completes in every state, in either phase. -/
def Obligations.Sha1InitCompletes : Prop :=
  ∀ s : State, exec .sha1Init s = .next { s with hs := ctxInit, phase := .active, rspq := s.rspq ++ [0] }

/-- Rule R131: SHA1_UPDATE, its completion and its three failures in order. -/
def Obligations.Sha1UpdateOutcome : Prop :=
  ∀ (s : State) (srcPtr srcLen : Word),
    (s.phase = .idle → exec (.sha1Update srcPtr srcLen) s = .next { s with rspq := s.rspq ++ [0x400] }) ∧
    (s.phase = .active → readOk s srcPtr.toNat srcLen.toNat = false →
      exec (.sha1Update srcPtr srcLen) s = .next { s with rspq := s.rspq ++ [0x600] }) ∧
    (s.phase = .active → readOk s srcPtr.toNat srcLen.toNat = true →
      2 ^ 64 ≤ s.hs.lenHi.toNat * 2 ^ 32 + s.hs.lenLo.toNat + 8 * srcLen.toNat →
      exec (.sha1Update srcPtr srcLen) s = .next { s with rspq := s.rspq ++ [0x700] }) ∧
    (s.phase = .active → readOk s srcPtr.toNat srcLen.toNat = true →
      s.hs.lenHi.toNat * 2 ^ 32 + s.hs.lenLo.toNat + 8 * srcLen.toNat < 2 ^ 64 →
      exec (.sha1Update srcPtr srcLen) s =
        .next { s with hs := ctxUpdate s.hs (s.mem.readBytes srcPtr.toNat srcLen.toNat), rspq := s.rspq ++ [0] })

/-- Rule R132: SHA1_FINAL, its completion and its two failures in order. The digest lies at the destination with the most significant byte
of `H[0]` lowest (rules R54, R61 c, R123). `H` and `BLK` are unspecified after it (rule R27), so nothing
is stated of them. -/
def Obligations.Sha1FinalOutcome : Prop :=
  ∀ (s : State) (dstPtr : Word),
    (s.phase = .idle → exec (.sha1Final dstPtr) s = .next { s with rspq := s.rspq ++ [0x400] }) ∧
    (s.phase = .active → writeOk s dstPtr.toNat 20 = false →
      exec (.sha1Final dstPtr) s = .next { s with rspq := s.rspq ++ [0x600] }) ∧
    (s.phase = .active → writeOk s dstPtr.toNat 20 = true →
      ∃ t, exec (.sha1Final dstPtr) s = .next t ∧ t.mem.readBytes dstPtr.toNat 20 = ctxDigest s.hs ∧
        (∀ j, j < 4 →
          t.mem.read (dstPtr.toNat + j) = (finalWords s.hs).h0.extractLsb' (24 - 8 * j) 8 ∧
          t.mem.read (dstPtr.toNat + 4 + j) = (finalWords s.hs).h1.extractLsb' (24 - 8 * j) 8 ∧
          t.mem.read (dstPtr.toNat + 8 + j) = (finalWords s.hs).h2.extractLsb' (24 - 8 * j) 8 ∧
          t.mem.read (dstPtr.toNat + 12 + j) = (finalWords s.hs).h3.extractLsb' (24 - 8 * j) 8 ∧
          t.mem.read (dstPtr.toNat + 16 + j) = (finalWords s.hs).h4.extractLsb' (24 - 8 * j) 8) ∧
        SameOutside s.mem t.mem dstPtr.toNat 20 ∧ t.hs.lenLo = 0 ∧ t.hs.lenHi = 0 ∧ t.hs.idx = 0 ∧ t.phase = .idle ∧
        t.rspq = s.rspq ++ [0] ∧ t.cmdq = s.cmdq ∧ t.platform = s.platform)

/-! HmacEngine -/

/-- Rules R160, R161: the two pads of a key of at most 64 bytes, byte by byte. -/
def Obligations.PadsOfAKey : Prop :=
  ∀ k : List Byte, k.length ≤ 64 →
    (innerPad k).length = 64 ∧ (outerPad k).length = 64 ∧
    (∀ i, i < k.length → (innerPad k).getD i 0 = k.getD i 0 ^^^ 0x36 ∧ (outerPad k).getD i 0 = k.getD i 0 ^^^ 0x5C) ∧
    ∀ i, k.length ≤ i → i < 64 → (innerPad k).getD i 0 = 0x36 ∧ (outerPad k).getD i 0 = 0x5C

/-- Rule R164, which the spec marks as derived from R160 to R163: fragments are authenticated as if concatenated, and the HMAC is the two nested hashes. -/
def Obligations.FragmentsAsIfConcatenated : Prop :=
  ∀ (k : List Byte) (frags : List (List Byte)),
    hmac k frags = hmac k [frags.flatten] ∧ hmac k frags = sha1 (outerPad k ++ sha1 (innerPad k ++ frags.flatten))

/-- Rule R166: HMAC is HMACV with one fragment, in effect and in response. -/
def Obligations.HmacIsOneFragmentHmacv : Prop :=
  ∀ (s : State) (klen : Byte) (msgPtr msgLen keyPtr dstPtr : Word),
    exec (.hmac klen msgPtr msgLen keyPtr dstPtr) s = exec (.hmacv klen keyPtr dstPtr [{ ptr := msgPtr, len := msgLen }]) s

/-- Rule R168: a fragment of length 0 contributes nothing and its pointer is not examined, so leaving such fragments out changes neither
the effect nor the response. -/
def Obligations.EmptyFragmentsContributeNothing : Prop :=
  ∀ (s : State) (klen : Byte) (keyPtr dstPtr : Word) (frags : List Fragment),
    exec (.hmacv klen keyPtr dstPtr frags) s = exec (.hmacv klen keyPtr dstPtr (frags.filter (fun f => f.len ≠ 0))) s

/-- Rule R165: HMACV completes when the key is at most 64 bytes and every range is admitted. -/
def Obligations.HmacvCompletes : Prop :=
  ∀ (s : State) (klen : Byte) (keyPtr dstPtr : Word) (frags : List Fragment),
    klen.toNat ≤ 64 → readOk s keyPtr.toNat klen.toNat = true → fragmentsOk s frags = true → writeOk s dstPtr.toNat 20 = true →
    ∃ t, exec (.hmacv klen keyPtr dstPtr frags) s = .next t ∧
      t.mem.readBytes dstPtr.toNat 20 = hmac (s.mem.readBytes keyPtr.toNat klen.toNat) (frags.map (readFragment s.mem)) ∧
      SameOutside s.mem t.mem dstPtr.toNat 20 ∧ t = { s with mem := t.mem, rspq := s.rspq ++ [0] }

/-- Rule R166: HMAC completes when the key is at most 64 bytes and every range is admitted. -/
def Obligations.HmacCompletes : Prop :=
  ∀ (s : State) (klen : Byte) (msgPtr msgLen keyPtr dstPtr : Word),
    klen.toNat ≤ 64 → readOk s keyPtr.toNat klen.toNat = true → readOk s msgPtr.toNat msgLen.toNat = true →
    writeOk s dstPtr.toNat 20 = true →
    ∃ t, exec (.hmac klen msgPtr msgLen keyPtr dstPtr) s = .next t ∧
      t.mem.readBytes dstPtr.toNat 20 =
        hmac (s.mem.readBytes keyPtr.toNat klen.toNat) [s.mem.readBytes msgPtr.toNat msgLen.toNat] ∧
      SameOutside s.mem t.mem dstPtr.toNat 20 ∧ t = { s with mem := t.mem, rspq := s.rspq ++ [0] }

/-! TagCodec -/

/-- Rule R181: the tag is the first 10 bytes of the 20-byte HMAC of the one message. -/
def Obligations.TagIsTruncatedHmac : Prop :=
  ∀ k m : List Byte, (hmac k [m]).length = 20 ∧ (tag k m).length = 10 ∧ ∃ rest, hmac k [m] = tag k m ++ rest

/-- Rule R182: AUTH completes when the tag fits the capacity and every range is admitted. The frame covers the bytes of the buffer behind
the tag. -/
def Obligations.AuthCompletes : Prop :=
  ∀ (s : State) (size cap : Byte) (bufPtr keyPtr : Word),
    size.toNat + 10 ≤ cap.toNat → readOk s keyPtr.toNat 16 = true → readOk s bufPtr.toNat size.toNat = true →
    writeOk s (bufPtr.toNat + size.toNat) 10 = true →
    ∃ t, exec (.auth size cap bufPtr keyPtr) s = .next t ∧
      t.mem.readBytes (bufPtr.toNat + size.toNat) 10 =
        tag (s.mem.readBytes keyPtr.toNat 16) (s.mem.readBytes bufPtr.toNat size.toNat) ∧
      SameOutside s.mem t.mem (bufPtr.toNat + size.toNat) 10 ∧
      t = { s with mem := t.mem, rspq := s.rspq ++ [BitVec.ofNat 32 (size.toNat + 10)] }

/-- Rules R183, R185, R186: VERIFY with all ranges admitted accepts exactly when the 10 received bytes are the tag, answers the payload
size, and writes nothing. -/
def Obligations.VerifyAcceptsExactlyTheTag : Prop :=
  ∀ (s : State) (size : Byte) (bufPtr keyPtr : Word) (n : Nat), size.toNat = n + 10 → 1 ≤ n →
    readOk s keyPtr.toNat 16 = true → readOk s bufPtr.toNat size.toNat = true →
    (s.mem.readBytes (bufPtr.toNat + n) 10 = tag (s.mem.readBytes keyPtr.toNat 16) (s.mem.readBytes bufPtr.toNat n) →
      exec (.verify size bufPtr keyPtr) s = .next { s with rspq := s.rspq ++ [BitVec.ofNat 32 n] }) ∧
    (s.mem.readBytes (bufPtr.toNat + n) 10 ≠ tag (s.mem.readBytes keyPtr.toNat 16) (s.mem.readBytes bufPtr.toNat n) →
      exec (.verify size bufPtr keyPtr) s = .next { s with rspq := s.rspq ++ [0x200] })

/-- Rule R187, which the spec marks as derived from R182 and R183: a message of 1 to 245 bytes that AUTH tagged is accepted by VERIFY, with
its own size, in every state that still holds the key and the tagged buffer and admits reading them; AUTH of any size that fits the capacity
answers `size + 10` when its ranges are admitted; the empty message does not come back. -/
def Obligations.AuthThenVerifyAccepts : Prop :=
  (∀ (s t u : State) (size cap : Byte) (bufPtr keyPtr : Word), 1 ≤ size.toNat → size.toNat ≤ 245 →
    exec (.auth size cap bufPtr keyPtr) s = .next t → t.rspq = s.rspq ++ [BitVec.ofNat 32 (size.toNat + 10)] →
    u.mem.readBytes bufPtr.toNat (size.toNat + 10) = t.mem.readBytes bufPtr.toNat (size.toNat + 10) →
    u.mem.readBytes keyPtr.toNat 16 = s.mem.readBytes keyPtr.toNat 16 →
    readOk u keyPtr.toNat 16 = true → readOk u bufPtr.toNat (size.toNat + 10) = true →
    exec (.verify (size + 10) bufPtr keyPtr) u = .next { u with rspq := u.rspq ++ [BitVec.ofNat 32 size.toNat] }) ∧
  (∀ (s : State) (size cap : Byte) (bufPtr keyPtr : Word), size.toNat + 10 ≤ cap.toNat → readOk s keyPtr.toNat 16 = true →
    readOk s bufPtr.toNat size.toNat = true → writeOk s (bufPtr.toNat + size.toNat) 10 = true →
    ∃ t, exec (.auth size cap bufPtr keyPtr) s = .next t ∧ t.rspq = s.rspq ++ [BitVec.ofNat 32 (size.toNat + 10)]) ∧
  ∀ (u : State) (bufPtr keyPtr : Word), exec (.verify 10 bufPtr keyPtr) u = .next { u with rspq := u.rspq ++ [0x200] }

/-- Rule R189, the tag-portion property: in a buffer VERIFY accepts, changing any byte of the tag that is not also a byte of the key makes
VERIFY fail. -/
def Obligations.ChangedTagByteIsRejected : Prop :=
  ∀ (s : State) (size b : Byte) (bufPtr keyPtr : Word) (a : Nat), 10 < size.toNat →
    exec (.verify size bufPtr keyPtr) s = .next { s with rspq := s.rspq ++ [BitVec.ofNat 32 (size.toNat - 10)] } →
    bufPtr.toNat + (size.toNat - 10) ≤ a → a < bufPtr.toNat + size.toNat → b ≠ s.mem.read a →
    ¬(keyPtr.toNat ≤ a ∧ a < keyPtr.toNat + 16) →
    exec (.verify size bufPtr keyPtr) (s.hostWrite a b) =
      .next { s.hostWrite a b with rspq := s.rspq ++ [0x200] }

/-- Rule R188, which the spec marks as derived from R182: no capacity admits a message of 246 bytes or more, whatever memory holds, and the
capacity 255 admits every message of at most 245 bytes. -/
def Obligations.UsableMessageSizesAreZeroTo245 : Prop :=
  (∀ (s : State) (size cap : Byte) (bufPtr keyPtr : Word), 246 ≤ size.toNat →
    exec (.auth size cap bufPtr keyPtr) s = .next { s with rspq := s.rspq ++ [0x100] }) ∧
  ∀ (s : State) (size : Byte) (bufPtr keyPtr : Word), size.toNat ≤ 245 → readOk s keyPtr.toNat 16 = true →
    readOk s bufPtr.toNat size.toNat = true → writeOk s (bufPtr.toNat + size.toNat) 10 = true →
    ∃ t, exec (.auth size 255 bufPtr keyPtr) s = .next t ∧ t.rspq = s.rspq ++ [BitVec.ofNat 32 (size.toNat + 10)]

/-! When each failure is answered -/

/-- Rule R202: CAPACITY_EXCEEDED is answered by AUTH only, exactly when `size + 10 > cap` over the integers, whatever memory holds and
admits. -/
def Obligations.CapacityExceededExactlyWhen : Prop :=
  ∀ (i : Instr) (s : State),
    exec i s = .next { s with rspq := s.rspq ++ [0x100] } ↔
      ∃ size cap bufPtr keyPtr, i = .auth size cap bufPtr keyPtr ∧ size.toNat + 10 > cap.toNat

/-- Rule R203: VERIFICATION_FAILED is answered by VERIFY only, in its two situations. -/
def Obligations.VerificationFailedExactlyWhen : Prop :=
  ∀ (i : Instr) (s : State),
    exec i s = .next { s with rspq := s.rspq ++ [0x200] } ↔
      ∃ size bufPtr keyPtr, i = .verify size bufPtr keyPtr ∧
        (size.toNat ≤ 10 ∨
          (10 < size.toNat ∧ readOk s keyPtr.toNat 16 = true ∧ readOk s bufPtr.toNat size.toNat = true ∧
            tag (s.mem.readBytes keyPtr.toNat 16) (s.mem.readBytes bufPtr.toNat (size.toNat - 10)) ≠
              s.mem.readBytes (bufPtr.toNat + (size.toNat - 10)) 10))

/-- Rule R205: SEQUENCE_ERROR is answered by SHA1_UPDATE and SHA1_FINAL only, exactly when `PHASE = IDLE`, whatever memory holds and
admits. -/
def Obligations.SequenceErrorExactlyWhen : Prop :=
  ∀ (i : Instr) (s : State),
    exec i s = .next { s with rspq := s.rspq ++ [0x400] } ↔
      s.phase = .idle ∧ ((∃ srcPtr srcLen, i = .sha1Update srcPtr srcLen) ∨ ∃ dstPtr, i = .sha1Final dstPtr)

/-- Rule R206: KEY_TOO_LONG is answered by HMAC and HMACV only, exactly when `klen > 64`, whatever memory holds and admits. -/
def Obligations.KeyTooLongExactlyWhen : Prop :=
  ∀ (i : Instr) (s : State),
    exec i s = .next { s with rspq := s.rspq ++ [0x500] } ↔
      (∃ klen msgPtr msgLen keyPtr dstPtr, i = .hmac klen msgPtr msgLen keyPtr dstPtr ∧ klen.toNat > 64) ∨
      ∃ klen keyPtr dstPtr frags, i = .hmacv klen keyPtr dstPtr frags ∧ klen.toNat > 64

/-- Rules R207, R210: MEM_FAULT is answered exactly when no condition of an earlier level holds and some range of the command's row of
table T-R58 is not admitted. -/
def Obligations.MemFaultExactlyWhen : Prop :=
  ∀ (i : Instr) (s : State),
    exec i s = .next { s with rspq := s.rspq ++ [0x600] } ↔
      (match i with
        | .sha1Init => True
        | .sha1Update _ _ => s.phase = .active
        | .sha1Final _ => s.phase = .active
        | .hmac klen _ _ _ _ => klen.toNat ≤ 64
        | .hmacv klen _ _ _ => klen.toNat ≤ 64
        | .auth size cap _ _ => size.toNat + 10 ≤ cap.toNat
        | .verify size _ _ => 10 < size.toNat) ∧
      ((∃ r ∈ readRanges i, readOk s r.1 r.2 = false) ∨ ∃ r ∈ writeRanges i, writeOk s r.1 r.2 = false)

/-- Rules R208, R210: LENGTH_OVERFLOW is answered by SHA1_UPDATE only, when a computation is in progress and the range is admitted,
exactly when the bit counter would reach `2^64`. -/
def Obligations.LengthOverflowExactlyWhen : Prop :=
  ∀ (i : Instr) (s : State),
    exec i s = .next { s with rspq := s.rspq ++ [0x700] } ↔
      ∃ srcPtr srcLen, i = .sha1Update srcPtr srcLen ∧ s.phase = .active ∧ readOk s srcPtr.toNat srcLen.toNat = true ∧
        2 ^ 64 ≤ s.hs.lenHi.toNat * 2 ^ 32 + s.hs.lenLo.toNat + 8 * srcLen.toNat
end

