-- ==== Sys2Proof/Laws/Decode.lean ====
section
/-! SUPPORT. The encoder and the decoder, function by function (rules R81 to R88). -/

namespace Sys2Proof

/-- The fields of a header the encoder builds (rule R81). -/
theorem headerWord_toNat (op a b : Byte) : (headerWord op a b).toNat = op.toNat + a.toNat * 2 ^ 8 + b.toNat * 2 ^ 16 := by
  have h1 := op.isLt
  have h2 := a.isLt
  have h3 := b.isLt
  simp only [headerWord, BitVec.toNat_ofNat]
  omega

@[simp] theorem fieldOp_headerWord (op a b : Byte) : fieldOp (headerWord op a b) = op := by
  apply BitVec.eq_of_toNat_eq
  have h1 := op.isLt
  simp only [fieldOp, headerWord_toNat, BitVec.toNat_ofNat]
  omega

@[simp] theorem fieldA_headerWord (op a b : Byte) : fieldA (headerWord op a b) = a := by
  apply BitVec.eq_of_toNat_eq
  have h1 := op.isLt
  have h2 := a.isLt
  simp only [fieldA, headerWord_toNat, BitVec.toNat_ofNat]
  omega

@[simp] theorem fieldB_headerWord (op a b : Byte) : fieldB (headerWord op a b) = b := by
  apply BitVec.eq_of_toNat_eq
  have h1 := op.isLt
  have h2 := a.isLt
  have h3 := b.isLt
  simp only [fieldB, headerWord_toNat, BitVec.toNat_ofNat]
  omega

@[simp] theorem fieldZ_headerWord (op a b : Byte) : fieldZ (headerWord op a b) = 0 := by
  apply BitVec.eq_of_toNat_eq
  have h1 := op.isLt
  have h2 := a.isLt
  have h3 := b.isLt
  show (fieldZ (headerWord op a b)).toNat = 0
  simp only [fieldZ, headerWord_toNat, BitVec.toNat_ofNat]
  omega

/-- A header is its four fields (rule R81). -/
theorem header_eq_fields (h : Word) (hz : fieldZ h = 0) : headerWord (fieldOp h) (fieldA h) (fieldB h) = h := by
  apply BitVec.eq_of_toNat_eq
  have h1 := h.isLt
  have h2 : (fieldZ h).toNat = 0 := by rw [hz]; rfl
  rw [headerWord_toNat]
  simp only [fieldOp, fieldA, fieldB, fieldZ, BitVec.toNat_ofNat] at h2 ⊢
  omega

@[simp] theorem opcodeOf_opcodeByte (o : Opcode) : opcodeOf (opcodeByte o) = some o := by cases o <;> decide

/-- An `op` field names an opcode exactly when it is that opcode's byte (rule R86). -/
theorem opcodeOf_eq_some {op : Byte} {o : Opcode} (h : opcodeOf op = some o) : op = opcodeByte o := by
  have := List.find?_some h
  exact (beq_iff_eq.mp this).symm

/-- What a header that selects a command looks like (rules R86, R87). -/
theorem selectCommand_ok {h : Word} {o : Opcode} (hs : selectCommand h = .ok o) :
    fieldZ h = 0 ∧ fieldOp h = opcodeByte o ∧ (formatUsesA (opcodeFormat o) = false → fieldA h = 0) ∧
      (formatUsesB (opcodeFormat o) = false → fieldB h = 0) := by
  unfold selectCommand at hs
  split at hs
  · cases hs
  · rename_i hz
    split at hs
    · cases hs
    · rename_i o' ho
      split at hs
      · cases hs
      · rename_i ha
        split at hs
        · cases hs
        · rename_i hb
          cases hs
          refine ⟨by simpa using hz, opcodeOf_eq_some ho, fun h1 => ?_, fun h1 => ?_⟩
          · simpa [h1] using ha
          · simpa [h1] using hb

/-- A header built from an opcode's byte and the fields its format uses selects that opcode (rule R86). -/
theorem selectCommand_headerWord (o : Opcode) (a b : Byte) (ha : formatUsesA (opcodeFormat o) = false → a = 0)
    (hb : formatUsesB (opcodeFormat o) = false → b = 0) : selectCommand (headerWord (opcodeByte o) a b) = .ok o := by
  unfold selectCommand
  simp only [fieldZ_headerWord, fieldOp_headerWord, opcodeOf_opcodeByte, fieldA_headerWord, fieldB_headerWord]
  cases h1 : formatUsesA (opcodeFormat o) <;> cases h2 : formatUsesB (opcodeFormat o) <;> simp_all

@[simp] theorem encodeFragments_length (frags : List Fragment) : (encodeFragments frags).length = 2 * frags.length := by
  induction frags with
  | nil => rfl
  | cons f fs ih => simp only [encodeFragments, List.length_cons, ih]; omega

/-- Reading back an encoded fragment list (rule R85). -/
theorem takeFragments_encodeFragments (frags : List Fragment) (rest : List Word) :
    takeFragments frags.length (encodeFragments frags ++ rest) = some (frags, rest) := by
  induction frags with
  | nil => rfl
  | cons f fs ih => simp [encodeFragments, takeFragments, ih]

/-- What a fragment list read from the stream is (rule R85). -/
theorem takeFragments_some {n : Nat} {ws rest : List Word} {frags : List Fragment} (h : takeFragments n ws = some (frags, rest)) :
    frags.length = n ∧ ws = encodeFragments frags ++ rest := by
  induction n generalizing ws frags with
  | zero =>
    simp only [takeFragments, Option.some.injEq, Prod.mk.injEq] at h
    obtain ⟨rfl, rfl⟩ := h
    exact ⟨rfl, rfl⟩
  | succ n ih =>
    match ws, h with
    | [], h => simp [takeFragments] at h
    | [_], h => simp [takeFragments] at h
    | p :: l :: ws, h =>
      simp only [takeFragments] at h
      split at h
      · rename_i fs r hr
        simp only [Option.some.injEq, Prod.mk.injEq] at h
        obtain ⟨rfl, rfl⟩ := h
        obtain ⟨h1, h2⟩ := ih hr
        exact ⟨by simp [h1], by simp [encodeFragments, h2]⟩
      · cases h

/-- When a fragment list has not all arrived (rule R90). -/
theorem takeFragments_none {n : Nat} {ws : List Word} : takeFragments n ws = none ↔ ws.length < 2 * n := by
  induction n generalizing ws with
  | zero => simp [takeFragments]
  | succ n ih =>
    match ws with
    | [] => simp [takeFragments]
    | [_] => simp [takeFragments]; omega
    | p :: l :: ws =>
      simp only [takeFragments, List.length_cons]
      cases h : takeFragments n ws with
      | none => have := ih.mp h; simp; omega
      | some r =>
        have : ¬ ws.length < 2 * n := fun hc => by rw [ih.mpr hc] at h; cases h
        simp; omega

/-- When the operand words of a command have not all arrived (rule R90). -/
theorem takeOperands_none {o : Opcode} {h : Word} {ws : List Word} :
    takeOperands o h ws = none ↔ ws.length < operandCount o (fieldB h) := by
  cases o <;> rcases ws with _ | ⟨w1, _ | ⟨w2, _ | ⟨w3, _ | ⟨w4, ws⟩⟩⟩⟩ <;>
    simp only [takeOperands, operandCount, List.length_cons, List.length_nil, reduceCtorEq, false_iff, true_iff, not_lt] <;>
    first
    | omega
    | (split
       · rename_i heq
         have := takeFragments_some heq
         have h2 := congrArg List.length this.2
         simp at h2
         simp
         omega
       · rename_i heq
         have := takeFragments_none.mp heq
         simp at this ⊢
         omega)

/-- The header of a command is the header word of its opcode and its two fields (rule R81). -/
theorem header_of_selectCommand {h : Word} {o : Opcode} (hs : selectCommand h = .ok o) :
    h = headerWord (opcodeByte o) (fieldA h) (fieldB h) := by
  obtain ⟨hz, ho, -, -⟩ := selectCommand_ok hs
  rw [← ho, header_eq_fields h hz]

/-- The decoder behind a header that selects a command. -/
theorem decode_of_select {h : Word} {o : Opcode} {ws rest : List Word} {i : Instr} (hs : selectCommand h = .ok o)
    (ht : takeOperands o h ws = some (i, rest)) : decode (h :: ws) = .command i rest := by
  simp only [decode, hs, ht]

/-- A command has at least its header word (rule R80). -/
theorem encode_ne_nil (i : Instr) : encode i ≠ [] := by cases i <;> simp [encode]

end Sys2Proof
end

