-- ==== Sys2Proof/Laws/State.lean ====
section
/-! SUPPORT. One lemma per field of `State` and per update, true by `rfl`, so that no later proof unfolds a record update; and the two
compositions of updates that come up. -/

namespace Sys2Proof.Machine

@[simp] theorem State.setHash_hs (s : State) (c : Ctx) : (s.setHash c).hs = c := rfl

@[simp] theorem State.setHash_phase (s : State) (c : Ctx) : (s.setHash c).phase = s.phase := rfl

@[simp] theorem State.setHash_cmdq (s : State) (c : Ctx) : (s.setHash c).cmdq = s.cmdq := rfl

@[simp] theorem State.setHash_rspq (s : State) (c : Ctx) : (s.setHash c).rspq = s.rspq := rfl

@[simp] theorem State.setHash_mem (s : State) (c : Ctx) : (s.setHash c).mem = s.mem := rfl

@[simp] theorem State.setHash_platform (s : State) (c : Ctx) : (s.setHash c).platform = s.platform := rfl

@[simp] theorem State.setHash_freeCount (s : State) (c : Ctx) : (s.setHash c).freeCount = s.freeCount := rfl

@[simp] theorem State.setPhase_hs (s : State) (p : Phase) : (s.setPhase p).hs = s.hs := rfl

@[simp] theorem State.setPhase_phase (s : State) (p : Phase) : (s.setPhase p).phase = p := rfl

@[simp] theorem State.setPhase_cmdq (s : State) (p : Phase) : (s.setPhase p).cmdq = s.cmdq := rfl

@[simp] theorem State.setPhase_rspq (s : State) (p : Phase) : (s.setPhase p).rspq = s.rspq := rfl

@[simp] theorem State.setPhase_mem (s : State) (p : Phase) : (s.setPhase p).mem = s.mem := rfl

@[simp] theorem State.setPhase_platform (s : State) (p : Phase) : (s.setPhase p).platform = s.platform := rfl

@[simp] theorem State.setPhase_freeCount (s : State) (p : Phase) : (s.setPhase p).freeCount = s.freeCount := rfl

@[simp] theorem State.setMem_hs (s : State) (m : Memory) : (s.setMem m).hs = s.hs := rfl

@[simp] theorem State.setMem_phase (s : State) (m : Memory) : (s.setMem m).phase = s.phase := rfl

@[simp] theorem State.setMem_cmdq (s : State) (m : Memory) : (s.setMem m).cmdq = s.cmdq := rfl

@[simp] theorem State.setMem_rspq (s : State) (m : Memory) : (s.setMem m).rspq = s.rspq := rfl

@[simp] theorem State.setMem_mem (s : State) (m : Memory) : (s.setMem m).mem = m := rfl

@[simp] theorem State.setMem_platform (s : State) (m : Memory) : (s.setMem m).platform = s.platform := rfl

@[simp] theorem State.setMem_freeCount (s : State) (m : Memory) : (s.setMem m).freeCount = s.freeCount := rfl

@[simp] theorem State.setCmdq_hs (s : State) (ws : List Word) : (s.setCmdq ws).hs = s.hs := rfl

@[simp] theorem State.setCmdq_phase (s : State) (ws : List Word) : (s.setCmdq ws).phase = s.phase := rfl

@[simp] theorem State.setCmdq_cmdq (s : State) (ws : List Word) : (s.setCmdq ws).cmdq = ws := rfl

@[simp] theorem State.setCmdq_rspq (s : State) (ws : List Word) : (s.setCmdq ws).rspq = s.rspq := rfl

@[simp] theorem State.setCmdq_mem (s : State) (ws : List Word) : (s.setCmdq ws).mem = s.mem := rfl

@[simp] theorem State.setCmdq_platform (s : State) (ws : List Word) : (s.setCmdq ws).platform = s.platform := rfl

@[simp] theorem State.setCmdq_freeCount (s : State) (ws : List Word) : (s.setCmdq ws).freeCount = s.freeCount := rfl

@[simp] theorem State.drawFree_hs (s : State) : s.drawFree.hs = s.hs := rfl

@[simp] theorem State.drawFree_phase (s : State) : s.drawFree.phase = s.phase := rfl

@[simp] theorem State.drawFree_cmdq (s : State) : s.drawFree.cmdq = s.cmdq := rfl

@[simp] theorem State.drawFree_rspq (s : State) : s.drawFree.rspq = s.rspq := rfl

@[simp] theorem State.drawFree_mem (s : State) : s.drawFree.mem = s.mem := rfl

@[simp] theorem State.drawFree_platform (s : State) : s.drawFree.platform = s.platform := rfl

@[simp] theorem State.drawFree_freeCount (s : State) : s.drawFree.freeCount = s.freeCount + 1 := rfl

@[simp] theorem State.respond_hs (s : State) (st : Status) (v : Byte) : (s.respond st v).hs = s.hs := rfl

@[simp] theorem State.respond_phase (s : State) (st : Status) (v : Byte) : (s.respond st v).phase = s.phase := rfl

@[simp] theorem State.respond_cmdq (s : State) (st : Status) (v : Byte) : (s.respond st v).cmdq = s.cmdq := rfl

@[simp] theorem State.respond_rspq (s : State) (st : Status) (v : Byte) : (s.respond st v).rspq = s.rspq ++ [responseWord st v] := rfl

@[simp] theorem State.respond_mem (s : State) (st : Status) (v : Byte) : (s.respond st v).mem = s.mem := rfl

@[simp] theorem State.respond_platform (s : State) (st : Status) (v : Byte) : (s.respond st v).platform = s.platform := rfl

@[simp] theorem State.respond_freeCount (s : State) (st : Status) (v : Byte) : (s.respond st v).freeCount = s.freeCount := rfl

@[simp] theorem State.raise_hs (s : State) (f : Status) : (s.raise f).hs = s.hs := rfl

@[simp] theorem State.raise_phase (s : State) (f : Status) : (s.raise f).phase = s.phase := rfl

@[simp] theorem State.raise_cmdq (s : State) (f : Status) : (s.raise f).cmdq = s.cmdq := rfl

@[simp] theorem State.raise_rspq (s : State) (f : Status) : (s.raise f).rspq = s.rspq ++ [responseWord f 0] := rfl

@[simp] theorem State.raise_mem (s : State) (f : Status) : (s.raise f).mem = s.mem := rfl

@[simp] theorem State.raise_platform (s : State) (f : Status) : (s.raise f).platform = s.platform := rfl

@[simp] theorem State.raise_freeCount (s : State) (f : Status) : (s.raise f).freeCount = s.freeCount := rfl

@[simp] theorem State.raiseIllegal_hs (s : State) : s.raiseIllegal.hs = s.hs := rfl

@[simp] theorem State.raiseIllegal_phase (s : State) : s.raiseIllegal.phase = s.phase := rfl

@[simp] theorem State.raiseIllegal_cmdq (s : State) : s.raiseIllegal.cmdq = s.cmdq := rfl

@[simp] theorem State.raiseIllegal_rspq (s : State) : s.raiseIllegal.rspq = s.rspq ++ [responseWord .illegalCommand 0] := rfl

@[simp] theorem State.raiseIllegal_mem (s : State) : s.raiseIllegal.mem = s.mem := rfl

@[simp] theorem State.raiseIllegal_platform (s : State) : s.raiseIllegal.platform = s.platform := rfl

@[simp] theorem State.raiseIllegal_freeCount (s : State) : s.raiseIllegal.freeCount = s.freeCount := rfl

/-- A response writes nothing but `RSPQ` (rule R201). -/
theorem State.raise_eq (s : State) (f : Status) : s.raise f = { s with rspq := s.rspq ++ [responseWord f 0] } := rfl

/-- Two states with the same fields are the same state. -/
theorem State.eq_of_fields {s t : State} (h1 : t.hs = s.hs) (h2 : t.phase = s.phase) (h3 : t.cmdq = s.cmdq) (h4 : t.rspq = s.rspq)
    (h5 : t.mem = s.mem) (h6 : t.platform = s.platform) (h7 : t.freeCount = s.freeCount) : t = s := by
  cases s; cases t; simp_all

end Sys2Proof.Machine
end

