-- ==== Sys2Proof/Laws/Exec.lean ====
section
/-! SUPPORT. What each meaning can do, once: if it answers `next t`, one of its cases holds, with the conditions of that case and all of
`t` (rules R130 to R132, R165, R166, R182, R183), and what a step can do. -/

namespace Sys2Proof.Machine

theorem isActive_iff (s : State) : s.isActive = true ↔ s.phase = .active := by simp [State.isActive]

theorem not_isActive_iff (s : State) : s.isActive = false ↔ s.phase = .idle := by cases h : s.phase <;> simp [State.isActive, h]

theorem execSha1Update_cases {srcPtr srcLen : Word} {s t : State} (h : execSha1Update srcPtr srcLen s = .next t) :
    (s.phase = .idle ∧ t = s.raise .sequenceError) ∨
    (s.phase = .active ∧ readOk s srcPtr.toNat srcLen.toNat = false ∧ t = s.raise .memFault) ∨
    (s.phase = .active ∧ readOk s srcPtr.toNat srcLen.toNat = true ∧ 2 ^ 64 ≤ bitLength s.hs + 8 * srcLen.toNat ∧
      t = s.raise .lengthOverflow) ∨
    (s.phase = .active ∧ readOk s srcPtr.toNat srcLen.toNat = true ∧ bitLength s.hs + 8 * srcLen.toNat < 2 ^ 64 ∧
      t = (s.setHash (ctxUpdate s.hs (s.mem.readBytes srcPtr.toNat srcLen.toNat))).respond .ok 0) := by
  unfold execSha1Update at h
  cases ha : s.isActive <;> simp only [ha, Bool.not_true, Bool.not_false, if_true, if_false, Bool.false_eq_true] at h
  · exact .inl ⟨(not_isActive_iff s).mp ha, by cases h; rfl⟩
  have ha := (isActive_iff s).mp ha
  cases hr : readOk s srcPtr.toNat srcLen.toNat <;> simp only [hr, Bool.not_true, Bool.not_false, if_true, if_false, Bool.false_eq_true] at h
  · exact .inr (.inl ⟨ha, rfl, by cases h; rfl⟩)
  split at h
  · rename_i hl
    exact .inr (.inr (.inl ⟨ha, rfl, hl, by cases h; rfl⟩))
  · rename_i hl
    exact .inr (.inr (.inr ⟨ha, rfl, not_le.mp hl, by cases h; rfl⟩))

theorem execSha1Final_cases {dstPtr : Word} {s t : State} (h : execSha1Final dstPtr s = .next t) :
    (s.phase = .idle ∧ t = s.raise .sequenceError) ∨
    (s.phase = .active ∧ writeOk s dstPtr.toNat 20 = false ∧ t = s.raise .memFault) ∨
    (s.phase = .active ∧ writeOk s dstPtr.toNat 20 = true ∧
      t = ((((s.setHash (ctxAfterFinal s.freeCtx)).drawFree).setMem (s.mem.writeBytes dstPtr.toNat (ctxDigest s.hs))).setPhase
        .idle).respond .ok 0) := by
  unfold execSha1Final at h
  cases ha : s.isActive <;> simp only [ha, Bool.not_true, Bool.not_false, if_true, if_false, Bool.false_eq_true] at h
  · exact .inl ⟨(not_isActive_iff s).mp ha, by cases h; rfl⟩
  have ha := (isActive_iff s).mp ha
  split at h
  · rename_i hw
    exact .inr (.inl ⟨ha, by simpa using hw, by cases h; rfl⟩)
  · rename_i hw
    exact .inr (.inr ⟨ha, by simpa using hw, by cases h; rfl⟩)

/-- What HMAC and HMACV share can do (rules R165, R166). -/
theorem hmacCommand_cases {klen : Byte} {keyPtr dstPtr : Word} {frags : List Fragment} {s t : State}
    (h : hmacCommand klen keyPtr dstPtr frags s = .next t) :
    (64 < klen.toNat ∧ t = s.raise .keyTooLong) ∨
    (klen.toNat ≤ 64 ∧
      (readOk s keyPtr.toNat klen.toNat = false ∨ fragmentsOk s frags = false ∨ writeOk s dstPtr.toNat 20 = false) ∧
      t = s.raise .memFault) ∨
    (klen.toNat ≤ 64 ∧ readOk s keyPtr.toNat klen.toNat = true ∧ fragmentsOk s frags = true ∧ writeOk s dstPtr.toNat 20 = true ∧
      t = (s.setMem (s.mem.writeBytes dstPtr.toNat
        (hmac (s.mem.readBytes keyPtr.toNat klen.toNat) (frags.map (readFragment s.mem))))).respond .ok 0) := by
  unfold hmacCommand at h
  split at h
  · rename_i hk
    exact .inl ⟨hk, by cases h; rfl⟩
  rename_i hk
  have hk := not_lt.mp hk
  split at h
  · rename_i h1
    exact .inr (.inl ⟨hk, .inl (by simpa using h1), by cases h; rfl⟩)
  rename_i h1
  split at h
  · rename_i h2
    exact .inr (.inl ⟨hk, .inr (.inl (by simpa using h2)), by cases h; rfl⟩)
  rename_i h2
  split at h
  · rename_i h3
    exact .inr (.inl ⟨hk, .inr (.inr (by simpa using h3)), by cases h; rfl⟩)
  · rename_i h3
    exact .inr (.inr ⟨hk, by simpa using h1, by simpa using h2, by simpa using h3, by cases h; rfl⟩)

theorem execAuth_cases {size cap : Byte} {bufPtr keyPtr : Word} {s t : State} (h : execAuth size cap bufPtr keyPtr s = .next t) :
    (cap.toNat < size.toNat + 10 ∧ t = s.raise .capacityExceeded) ∨
    (size.toNat + 10 ≤ cap.toNat ∧
      (readOk s keyPtr.toNat 16 = false ∨ readOk s bufPtr.toNat size.toNat = false ∨
        writeOk s (bufPtr.toNat + size.toNat) 10 = false) ∧ t = s.raise .memFault) ∨
    (size.toNat + 10 ≤ cap.toNat ∧ readOk s keyPtr.toNat 16 = true ∧ readOk s bufPtr.toNat size.toNat = true ∧
      writeOk s (bufPtr.toNat + size.toNat) 10 = true ∧
      t = (s.setMem (s.mem.writeBytes (bufPtr.toNat + size.toNat)
        (tag (s.mem.readBytes keyPtr.toNat 16) (s.mem.readBytes bufPtr.toNat size.toNat)))).respond .ok
          (BitVec.ofNat 8 (size.toNat + 10))) := by
  unfold execAuth at h
  split at h
  · rename_i hk
    exact .inl ⟨hk, by cases h; rfl⟩
  rename_i hk
  have hk := not_lt.mp hk
  split at h
  · rename_i h1
    exact .inr (.inl ⟨hk, .inl (by simpa using h1), by cases h; rfl⟩)
  rename_i h1
  split at h
  · rename_i h2
    exact .inr (.inl ⟨hk, .inr (.inl (by simpa using h2)), by cases h; rfl⟩)
  rename_i h2
  split at h
  · rename_i h3
    exact .inr (.inl ⟨hk, .inr (.inr (by simpa using h3)), by cases h; rfl⟩)
  · rename_i h3
    exact .inr (.inr ⟨hk, by simpa using h1, by simpa using h2, by simpa using h3, by cases h; rfl⟩)

theorem execVerify_cases {size : Byte} {bufPtr keyPtr : Word} {s t : State} (h : execVerify size bufPtr keyPtr s = .next t) :
    (size.toNat ≤ 10 ∧ t = s.raise .verificationFailed) ∨
    (10 < size.toNat ∧ (readOk s keyPtr.toNat 16 = false ∨ readOk s bufPtr.toNat size.toNat = false) ∧ t = s.raise .memFault) ∨
    (10 < size.toNat ∧ readOk s keyPtr.toNat 16 = true ∧ readOk s bufPtr.toNat size.toNat = true ∧
      tagDifference (tag (s.mem.readBytes keyPtr.toNat 16) (s.mem.readBytes bufPtr.toNat (size.toNat - 10)))
        (s.mem.readBytes (bufPtr.toNat + (size.toNat - 10)) 10) ≠ 0 ∧ t = s.raise .verificationFailed) ∨
    (10 < size.toNat ∧ readOk s keyPtr.toNat 16 = true ∧ readOk s bufPtr.toNat size.toNat = true ∧
      tagDifference (tag (s.mem.readBytes keyPtr.toNat 16) (s.mem.readBytes bufPtr.toNat (size.toNat - 10)))
        (s.mem.readBytes (bufPtr.toNat + (size.toNat - 10)) 10) = 0 ∧
      t = s.respond .ok (BitVec.ofNat 8 (size.toNat - 10))) := by
  unfold execVerify at h
  split at h
  · rename_i hk
    exact .inl ⟨hk, by cases h; rfl⟩
  rename_i hk
  have hk := not_le.mp hk
  split at h
  · rename_i h1
    exact .inr (.inl ⟨hk, .inl (by simpa using h1), by cases h; rfl⟩)
  rename_i h1
  split at h
  · rename_i h2
    exact .inr (.inl ⟨hk, .inr (by simpa using h2), by cases h; rfl⟩)
  rename_i h2
  split at h
  · rename_i h3
    exact .inr (.inr (.inl ⟨hk, by simpa using h1, by simpa using h2, h3, by cases h; rfl⟩))
  · rename_i h3
    exact .inr (.inr (.inr ⟨hk, by simpa using h1, by simpa using h2, by simpa using h3, by cases h; rfl⟩))

/-- What a step can do (rules R88, R90): execute the command at the front of the stream, answer an illegal header, or wait. -/
theorem step_cases {s t : State} (h : step s = .next t) :
    (∃ i rest, decode s.cmdq = .command i rest ∧ exec i (s.setCmdq rest) = .next t) ∨
    (∃ why rest, decode s.cmdq = .illegal why rest ∧ t = (s.setCmdq rest).raiseIllegal) ∨
    (decode s.cmdq = .incomplete ∧ t = s) := by
  simp only [step, State.fetch] at h
  split at h
  · rename_i i rest hd
    exact .inl ⟨i, rest, hd, h⟩
  · rename_i why rest hd
    exact .inr (.inl ⟨why, rest, hd, by cases h; rfl⟩)
  · rename_i hd
    exact .inr (.inr ⟨hd, by cases h; rfl⟩)

end Sys2Proof.Machine
end

