-- ==== Sys2Proof/Laws/Hash.lean ====
section
/-! SUPPORT. What the functions on hash contexts do, one small lemma per function (rules R120 to R129, R160 to R164, R181). -/

namespace Sys2Proof.Machine

/-- `compress` unfolded (rules R124 to R129). -/
theorem compress_eq (h : HashWords) (b : Block) :
    compress h b = addWorking h (hashRounds 0 (schedule b) (startWorking h)) := by unfold compress; rfl

/-- `ctxDigest` unfolded (rule R123). -/
theorem ctxDigest_eq (c : Ctx) : ctxDigest c = serialize (finalWords c) := by unfold ctxDigest; rfl

@[simp] theorem bytesBe32_length (w : Word) : (bytesBe32 w).length = 4 := by simp [bytesBe32]

/-- Byte `j` of a word, most significant byte first (rule R7). -/
theorem bytesBe32_getD (w : Word) {j : Nat} (h : j < 4) : (bytesBe32 w).getD j 0 = w.extractLsb' (24 - 8 * j) 8 := by
  obtain rfl | rfl | rfl | rfl : j = 0 ∨ j = 1 ∨ j = 2 ∨ j = 3 := by omega
  all_goals
    apply BitVec.eq_of_toNat_eq
    simp [bytesBe32, BitVec.extractLsb'_toNat, Nat.shiftRight_eq_div_pow]

/-- `be32` as a number: no byte is lost (rule R7). -/
theorem be32_toNat (b0 b1 b2 b3 : Byte) :
    (be32 b0 b1 b2 b3).toNat = b0.toNat * 2 ^ 24 + b1.toNat * 2 ^ 16 + b2.toNat * 2 ^ 8 + b3.toNat := by
  have h0 := b0.isLt
  have h1 := b1.isLt
  have h2 := b2.isLt
  have h3 := b3.isLt
  rw [be32, BitVec.toNat_ofNat]
  omega

/-- `bytes_be32` undoes `be32` (rule R7). -/
theorem bytesBe32_be32 (b0 b1 b2 b3 : Byte) : bytesBe32 (be32 b0 b1 b2 b3) = [b0, b1, b2, b3] := by
  have h0 := b0.isLt
  have h1 := b1.isLt
  have h2 := b2.isLt
  have h3 := b3.isLt
  have h := be32_toNat b0 b1 b2 b3
  simp only [bytesBe32, List.cons.injEq, and_true]
  refine ⟨?_, ?_, ?_, ?_⟩
  all_goals
    apply BitVec.eq_of_toNat_eq
    rw [BitVec.toNat_ofNat]
    omega

/-- Byte `j` of the word `be32` puts together, most significant byte first (rule R7). -/
theorem be32_extract (b0 b1 b2 b3 : Byte) {j : Nat} (h : j < 4) :
    (be32 b0 b1 b2 b3).extractLsb' (24 - 8 * j) 8 = [b0, b1, b2, b3].getD j 0 := by
  rw [← bytesBe32_getD _ h, bytesBe32_be32]

/-- `bytes_be32` and `be32` are inverse (rule R7). -/
theorem be32_of_bytesBe32 (w : Word) :
    be32 ((bytesBe32 w).getD 0 0) ((bytesBe32 w).getD 1 0) ((bytesBe32 w).getD 2 0) ((bytesBe32 w).getD 3 0) = w := by
  apply BitVec.eq_of_toNat_eq
  have := w.isLt
  simp only [bytesBe32, be32, List.getD_cons_zero, List.getD_cons_succ, BitVec.toNat_ofNat]
  omega

/-- A digest is 20 bytes (rule R123). -/
@[simp] theorem serialize_length (h : HashWords) : (serialize h).length = 20 := by simp [serialize]

/-- The bytes of a digest: word by word, the most significant byte of each first (rules R61 c, R123). -/
theorem serialize_getD (h : HashWords) {j : Nat} (hj : j < 4) :
    (serialize h).getD j 0 = h.h0.extractLsb' (24 - 8 * j) 8 ∧ (serialize h).getD (4 + j) 0 = h.h1.extractLsb' (24 - 8 * j) 8 ∧
    (serialize h).getD (8 + j) 0 = h.h2.extractLsb' (24 - 8 * j) 8 ∧ (serialize h).getD (12 + j) 0 = h.h3.extractLsb' (24 - 8 * j) 8 ∧
    (serialize h).getD (16 + j) 0 = h.h4.extractLsb' (24 - 8 * j) 8 := by
  obtain rfl | rfl | rfl | rfl : j = 0 ∨ j = 1 ∨ j = 2 ∨ j = 3 := by omega
  all_goals
    refine ⟨?_, ?_, ?_, ?_, ?_⟩ <;> rw [← bytesBe32_getD _ (by decide)] <;> rfl

@[simp] theorem ctxDigest_length (c : Ctx) : (ctxDigest c).length = 20 := by rw [ctxDigest_eq, serialize_length]

@[simp] theorem sha1_length (m : List Byte) : (sha1 m).length = 20 := ctxDigest_length _

@[simp] theorem hmac_length (k : List Byte) (frags : List (List Byte)) : (hmac k frags).length = 20 := ctxDigest_length _

/-- A tag is 10 bytes (rule R181). -/
@[simp] theorem tag_length (k m : List Byte) : (tag k m).length = 10 := by simp [tag]

/-- A key block is 64 bytes when the key is at most 64 bytes (rule R160). -/
theorem keyBlock_length {k : List Byte} (h : k.length ≤ 64) : (keyBlock k).length = 64 := by
  simp [keyBlock]; omega

@[simp] theorem loadWords_length (b : Block) : (loadWords b).length = 16 := by simp [loadWords]

@[simp] theorem extendSchedule_length (n : Nat) (latest : List Word) : (extendSchedule n latest).length = n + latest.length := by
  induction n generalizing latest with
  | zero => simp [extendSchedule]
  | succ n ih => rw [extendSchedule, ih, List.length_cons]; omega

@[simp] theorem ctxUpdate_nil (c : Ctx) : ctxUpdate c [] = c := rfl

@[simp] theorem ctxUpdate_cons (c : Ctx) (x : Byte) (s : List Byte) : ctxUpdate c (x :: s) = ctxUpdate (absorbByte c x) s := rfl

@[simp] theorem absorbByte_lenLo (c : Ctx) (x : Byte) : (absorbByte c x).lenLo = c.lenLo + 8 := by
  unfold absorbByte; split <;> rfl

@[simp] theorem absorbByte_lenHi (c : Ctx) (x : Byte) : (absorbByte c x).lenHi = carryHigh (c.lenLo + 8) c.lenHi := by
  unfold absorbByte; split <;> rfl

@[simp] theorem absorbByte_blk (c : Ctx) (x : Byte) : (absorbByte c x).blk = c.blk.set c.idx.val x c.idx.isLt := by
  unfold absorbByte; split <;> rfl

/-- The fill index after a byte (rule R24). -/
theorem absorbByte_idx (c : Ctx) (x : Byte) : (absorbByte c x).idx.val = (c.idx.val + 1) % 64 := by
  unfold absorbByte
  split
  · simp only; omega
  · have := c.idx.isLt
    show 0 = _
    omega

/-- The hash words after a byte: compressed if the byte filled the block (rule R122). -/
theorem absorbByte_h (c : Ctx) (x : Byte) :
    (absorbByte c x).h = if c.idx.val + 1 < 64 then c.h else compress c.h (c.blk.set c.idx.val x c.idx.isLt) := by
  unfold absorbByte; split <;> rfl

@[simp] theorem ctxAfterFinal_lenLo (c : Ctx) : (ctxAfterFinal c).lenLo = 0 := rfl

@[simp] theorem ctxAfterFinal_lenHi (c : Ctx) : (ctxAfterFinal c).lenHi = 0 := rfl

@[simp] theorem ctxAfterFinal_idx (c : Ctx) : (ctxAfterFinal c).idx = 0 := rfl

/-- Storing bytes into a block: inside the range the byte of the sequence, outside it the byte as before. -/
theorem blockByte_storeBlock (b : Block) (i : Nat) (s : List Byte) (j : Nat) :
    blockByte (storeBlock b i s) j = if i ≤ j ∧ j < i + s.length ∧ j < 64 then s.getD (j - i) 0 else blockByte b j := by
  induction s generalizing b i with
  | nil => simp only [storeBlock, List.length_nil]; split <;> [omega; rfl]
  | cons x s ih =>
    rw [storeBlock, ih, List.length_cons]
    have hset : ∀ k, blockByte (b.setIfInBounds i x) k = if k = i ∧ k < 64 then x else blockByte b k := by
      intro k
      simp only [blockByte, List.getD_eq_getElem?_getD, Vector.toList_setIfInBounds, List.getElem?_set, Vector.length_toList]
      by_cases hk : i = k
      · subst hk
        by_cases h64 : i < 64 <;> simp [h64]
      · simp [hk, Ne.symm hk]
    rw [hset]
    by_cases h1 : j = i
    · subst h1
      by_cases h64 : j < 64
      · rw [if_neg (by omega), if_pos ⟨rfl, h64⟩, if_pos (by omega)]; simp
      · rw [if_neg (by omega), if_neg (by omega), if_neg (by omega)]
    · by_cases h2 : i ≤ j ∧ j < i + (s.length + 1) ∧ j < 64
      · rw [if_pos (by omega), if_pos h2]
        obtain ⟨k, hk⟩ : ∃ k, j - i = k + 1 := ⟨j - i - 1, by omega⟩
        rw [hk, List.getD_cons_succ]
        congr 1; omega
      · rw [if_neg (by omega), if_neg (by omega), if_neg h2]

/-- Zeroing bytes of a block (rule R123). -/
theorem blockByte_zeroBlock (b : Block) (i j k : Nat) :
    blockByte (zeroBlock b i j) k = if i ≤ k ∧ k < j ∧ k < 64 then 0 else blockByte b k := by
  rw [zeroBlock, blockByte_storeBlock]
  simp only [List.length_replicate, List.getD_eq_getElem?_getD, List.getElem?_replicate]
  by_cases h : i ≤ k ∧ k < j ∧ k < 64
  · rw [if_pos (by omega), if_pos h, if_pos (by omega)]; rfl
  · rw [if_neg (by omega), if_neg h]

/-- Storing the length: bytes 56 to 59 take the high half, 60 to 63 the low half (rule R123). -/
theorem blockByte_storeLength (b : Block) (hi lo : Word) {j : Nat} (h : j < 64) :
    blockByte (storeLength b hi lo) j =
      if j < 56 then blockByte b j else if j < 60 then (bytesBe32 hi).getD (j - 56) 0 else (bytesBe32 lo).getD (j - 60) 0 := by
  simp only [storeLength, blockByte_storeBlock, bytesBe32_length]
  by_cases h1 : j < 56
  · rw [if_neg (by omega), if_neg (by omega), if_pos h1]
  by_cases h2 : j < 60
  · rw [if_neg (by omega), if_pos (by omega), if_neg h1, if_pos h2]
  · rw [if_pos (by omega), if_neg h1, if_neg h2]

/-- Setting one byte of a block. -/
theorem blockByte_set (b : Block) (i : Nat) (x : Byte) (h : i < 64) (j : Nat) :
    blockByte (b.set i x h) j = if j = i then x else blockByte b j := by
  simp only [blockByte, List.getD_eq_getElem?_getD, Vector.toList_set, List.getElem?_set, Vector.length_toList]
  by_cases hj : i = j
  · subst hj; simp [h]
  · simp [hj, Ne.symm hj]

/-- A block is its 64 bytes. -/
theorem block_eq_of_blockByte {b b' : Block} (h : ∀ i, i < 64 → blockByte b i = blockByte b' i) : b = b' := by
  apply Vector.ext
  intro i hi
  have := h i hi
  simpa [blockByte, List.getD_eq_getElem?_getD, hi] using this

/-- The comparison of rule R186 is zero exactly when no byte differs. -/
theorem tagDifference_fold (ds : List Byte) (d : Byte) : ds.foldl (fun d x => d ||| x) d = 0 ↔ d = 0 ∧ ∀ x ∈ ds, x = 0 := by
  induction ds generalizing d with
  | nil => simp
  | cons x ds ih =>
    rw [List.foldl_cons, ih]
    constructor
    · rintro ⟨h1, h2⟩
      obtain ⟨ha, hb⟩ := BitVec.or_eq_zero_iff.mp h1
      exact ⟨ha, by simpa [hb] using h2⟩
    · rintro ⟨rfl, h2⟩
      exact ⟨by simp [h2 x (by simp)], fun y hy => h2 y (by simp [hy])⟩

end Sys2Proof.Machine
end

