-- ==== Sys2Proof/Laws/Memory.lean ====
section
/-! SUPPORT. What the operations on the data memory do: reads after writes, and the canonical form they keep. -/

namespace Sys2Proof.Machine

theorem Memory.read_cons (k : Nat) (v : Byte) (m : Memory) (a : Nat) :
    Memory.read ((k, v) :: m) a = if k = a then v else Memory.read m a := rfl

theorem Memory.read_insert (m : Memory) (a a' : Nat) (b : Byte) (h : ∀ c ∈ m, c.1 ≠ a) :
    (Memory.insert m a b).read a' = if a' = a then b else m.read a' := by
  have hun : ∀ m' : Memory, (∀ c ∈ m', c.1 ≠ a) → m'.read a = Memory.unlisted := by
    intro m'
    induction m' with
    | nil => intro _; rfl
    | cons c m' ih => intro h'; rw [Memory.read_cons, if_neg (h' c (by simp)), ih (fun c hc => h' c (by simp [hc]))]
  induction m with
  | nil =>
    simp only [Memory.insert]
    split
    · rename_i hb
      simp [Memory.read, hb]
    · simp [Memory.read, eq_comm]
  | cons c m ih =>
    obtain ⟨k, v⟩ := c
    have hk : k ≠ a := h (k, v) (by simp)
    have ih' := ih (fun c hc => h c (by simp [hc]))
    simp only [Memory.insert]
    split
    · split
      · rename_i hb
        by_cases h1 : a' = a
        · rw [if_pos h1, h1, hun _ h, hb]
        · rw [if_neg h1]
      · simp only [Memory.read_cons, eq_comm (a := a)]
    · rw [Memory.read_cons, ih', Memory.read_cons]
      by_cases h1 : k = a'
      · subst h1; simp [hk]
      · simp [h1]

theorem Memory.read_filter_ne (m : Memory) (a a' : Nat) :
    Memory.read (m.filter (fun c => c.1 ≠ a)) a' = if a' = a then Memory.unlisted else m.read a' := by
  induction m with
  | nil => simp [Memory.read]
  | cons c m ih =>
    obtain ⟨k, v⟩ := c
    by_cases hk : k = a
    · rw [List.filter_cons_of_neg (by simp [hk]), ih, Memory.read_cons]
      by_cases h1 : a' = a
      · simp [h1]
      · simp [h1, hk, Ne.symm h1]
    · rw [List.filter_cons_of_pos (by simp [hk]), Memory.read_cons, ih, Memory.read_cons]
      by_cases h1 : k = a'
      · subst h1; simp [hk]
      · simp [h1]

/-- A read after a write: the byte written at its address, every other byte as before (rule R60). -/
theorem Memory.read_write (m : Memory) (a a' : Nat) (b : Byte) :
    (m.write a b).read a' = if a' = a then b else m.read a' := by
  rw [Memory.write, Memory.read_insert _ _ _ _ (by simp), Memory.read_filter_ne]
  split <;> rfl

@[simp] theorem Memory.read_write_same (m : Memory) (a : Nat) (b : Byte) : (m.write a b).read a = b := by
  simp [Memory.read_write]

theorem Memory.read_write_ne (m : Memory) {a a' : Nat} (b : Byte) (h : a' ≠ a) : (m.write a b).read a' = m.read a' := by
  simp [Memory.read_write, h]

/-- A read after `WriteBytes` (rule R54): inside the range the byte of the sequence, outside it the byte as before. -/
theorem Memory.read_writeBytes (m : Memory) (p : Nat) (bs : List Byte) (a : Nat) :
    (m.writeBytes p bs).read a = if p ≤ a ∧ a < p + bs.length then bs.getD (a - p) 0 else m.read a := by
  induction bs generalizing m p with
  | nil => simp only [Memory.writeBytes, List.length_nil]; split <;> [omega; rfl]
  | cons b bs ih =>
    simp only [Memory.writeBytes, ih, Memory.read_write, List.length_cons]
    by_cases h1 : a = p
    · subst h1; simp
    · by_cases h2 : p ≤ a ∧ a < p + (bs.length + 1)
      · rw [if_pos (by omega), if_pos h2]
        obtain ⟨k, hk⟩ : ∃ k, a - p = k + 1 := ⟨a - p - 1, by omega⟩
        rw [hk, List.getD_cons_succ]
        congr 1; omega
      · rw [if_neg (by omega), if_neg h2, if_neg h1]

@[simp] theorem Memory.readBytes_length (m : Memory) (p n : Nat) : (m.readBytes p n).length = n := by simp [Memory.readBytes]

@[simp] theorem Memory.readBytes_zero (m : Memory) (p : Nat) : m.readBytes p 0 = [] := rfl

/-- Two memories that agree on a range give the same bytes for it (rule R53). -/
theorem Memory.readBytes_congr {m m' : Memory} {p n : Nat} (h : ∀ a, p ≤ a → a < p + n → m'.read a = m.read a) :
    m'.readBytes p n = m.readBytes p n := by
  simp only [Memory.readBytes]
  refine List.map_congr_left fun i hi => h _ (by omega) ?_
  have := List.mem_range.mp hi
  omega

/-- Element `i` of `ReadBytes(p, n)` is the byte at `p + i` (rule R53). -/
theorem Memory.readBytes_getElem (m : Memory) (p n i : Nat) (h : i < (m.readBytes p n).length) :
    (m.readBytes p n)[i] = m.read (p + i) := by simp [Memory.readBytes]

/-- A range is the range of its first bytes and the range of the rest (rule R53). -/
theorem Memory.readBytes_add (m : Memory) (p n k : Nat) : m.readBytes p (n + k) = m.readBytes p n ++ m.readBytes (p + n) k := by
  simp only [Memory.readBytes, List.range_add, List.map_append, List.map_map]
  congr 1
  refine List.map_congr_left fun i _ => ?_
  simp [Nat.add_assoc]

theorem Memory.wf_cons (a : Nat) (b : Byte) (m : Memory) :
    Memory.wf ((a, b) :: m) = true ↔ a < 2 ^ 32 ∧ b ≠ Memory.unlisted ∧ (∀ c ∈ m, a < c.1) ∧ Memory.wf m = true := by
  simp [Memory.wf, and_assoc]

theorem Memory.mem_insert {m : Memory} {a : Nat} {b : Byte} {c : Host.Cell} (h : c ∈ Memory.insert m a b) : c = (a, b) ∨ c ∈ m := by
  induction m with
  | nil =>
    simp only [Memory.insert] at h
    split at h
    · cases h
    · simpa using h
  | cons d m ih =>
    simp only [Memory.insert] at h
    split at h
    · split at h
      · exact .inr h
      · simpa using h
    · rcases List.mem_cons.mp h with h | h
      · simp [h]
      · rcases ih h with h | h <;> simp [h]

theorem Memory.wf_insert {m : Memory} {a : Nat} (b : Byte) (hm : Memory.wf m = true) (ha : a < 2 ^ 32)
    (hn : ∀ c ∈ m, c.1 ≠ a) : Memory.wf (Memory.insert m a b) = true := by
  induction m with
  | nil =>
    simp only [Memory.insert]
    split
    · rfl
    · rename_i hb
      exact (Memory.wf_cons _ _ _).mpr ⟨ha, hb, by simp, rfl⟩
  | cons c m ih =>
    obtain ⟨k, v⟩ := c
    obtain ⟨hk, hv, hlt, hm'⟩ := (Memory.wf_cons _ _ _).mp hm
    simp only [Memory.insert]
    split
    · rename_i h
      split
      · exact hm
      · rename_i hb
        refine (Memory.wf_cons _ _ _).mpr ⟨ha, hb, fun c hc => ?_, hm⟩
        rcases List.mem_cons.mp hc with rfl | hc
        · exact h
        · exact Nat.lt_trans h (hlt c hc)
    · rename_i h
      have hne := hn (k, v) (by simp)
      refine (Memory.wf_cons _ _ _).mpr ⟨hk, hv, fun c hc => ?_, ih hm' (fun c hc => hn c (by simp [hc]))⟩
      rcases Memory.mem_insert hc with rfl | hc
      · simp only at hne; show k < a; omega
      · exact hlt c hc

theorem Memory.wf_filter {m : Memory} (hm : Memory.wf m = true) (a : Nat) : Memory.wf (m.filter (fun c => c.1 ≠ a)) = true := by
  induction m with
  | nil => rfl
  | cons c m ih =>
    obtain ⟨k, v⟩ := c
    obtain ⟨hk, hv, hlt, hm'⟩ := (Memory.wf_cons _ _ _).mp hm
    by_cases h : k = a
    · rw [List.filter_cons_of_neg (by simp [h])]
      exact ih hm'
    · rw [List.filter_cons_of_pos (by simp [h])]
      exact (Memory.wf_cons _ _ _).mpr ⟨hk, hv, fun c hc => hlt c (List.mem_filter.mp hc).1, ih hm'⟩

/-- A write inside the address space keeps the canonical form. -/
theorem Memory.write_keeps_wf {m : Memory} {a : Nat} (b : Byte) (hm : Memory.wf m = true) (ha : a < 2 ^ 32) :
    Memory.wf (m.write a b) = true := Memory.wf_insert b (Memory.wf_filter hm a) ha (by simp)

/-- `WriteBytes` inside the address space keeps the canonical form. -/
theorem Memory.writeBytes_keeps_wf {m : Memory} {p : Nat} {bs : List Byte} (hm : Memory.wf m = true) (hp : p + bs.length ≤ 2 ^ 32) :
    Memory.wf (m.writeBytes p bs) = true := by
  induction bs generalizing m p with
  | nil => exact hm
  | cons b bs ih =>
    simp only [List.length_cons] at hp
    exact ih (Memory.write_keeps_wf b hm (by omega)) (by omega)

theorem Memory.read_eq_unlisted {m : Memory} {a : Nat} (h : ∀ c ∈ m, c.1 ≠ a) : m.read a = Memory.unlisted := by
  induction m with
  | nil => rfl
  | cons c m ih =>
    obtain ⟨k, v⟩ := c
    rw [Memory.read_cons, if_neg (h (k, v) (by simp)), ih (fun c hc => h c (by simp [hc]))]

/-- Canonical memories that read alike are the same data. -/
theorem Memory.eq_of_read_eq {m m' : Memory} (hm : Memory.wf m = true) (hm' : Memory.wf m' = true)
    (h : ∀ a, m.read a = m'.read a) : m = m' := by
  induction m generalizing m' with
  | nil =>
    cases m' with
    | nil => rfl
    | cons c m' =>
      obtain ⟨k, v⟩ := c
      have := h k
      rw [Memory.read_cons, if_pos rfl] at this
      exact absurd this.symm ((Memory.wf_cons _ _ _).mp hm').2.1
  | cons c m ih =>
    obtain ⟨k, v⟩ := c
    obtain ⟨-, hv, hlt, hw⟩ := (Memory.wf_cons _ _ _).mp hm
    cases m' with
    | nil =>
      have := h k
      rw [Memory.read_cons, if_pos rfl] at this
      exact absurd this hv
    | cons c' m' =>
      obtain ⟨k', v'⟩ := c'
      obtain ⟨-, hv', hlt', hw'⟩ := (Memory.wf_cons _ _ _).mp hm'
      have hk : k = k' := by
        rcases Nat.lt_trichotomy k k' with hlt2 | heq | hlt2
        · have h1 := h k
          rw [Memory.read_cons, if_pos rfl, Memory.read_cons, if_neg (by omega),
            Memory.read_eq_unlisted (fun c hc => by have := hlt' c hc; omega)] at h1
          exact absurd h1 hv
        · exact heq
        · have h1 := h k'
          rw [Memory.read_cons, if_neg (by omega), Memory.read_cons, if_pos rfl,
            Memory.read_eq_unlisted (fun c hc => by have := hlt c hc; omega)] at h1
          exact absurd h1.symm hv'
      subst hk
      have hvv : v = v' := by simpa [Memory.read_cons] using h k
      subst hvv
      congr 1
      refine ih hw hw' fun a => ?_
      by_cases ha : k = a
      · subst ha
        rw [Memory.read_eq_unlisted (fun c hc => by have := hlt c hc; omega),
          Memory.read_eq_unlisted (fun c hc => by have := hlt' c hc; omega)]
      · simpa [Memory.read_cons, ha] using h a

end Sys2Proof.Machine
end

