-- ==== Sys2Proof/Laws/Operands.lean ====
section
/-! SUPPORT. What range admission gives (rule R56). -/

namespace Sys2Proof.Machine

/-- An empty range is always admitted, whatever its pointer (rule R56). -/
@[simp] theorem admitted_zero (regions : List Region) (p : Nat) : admitted regions p 0 = true := by simp [admitted]

/-- An admitted range that is not empty ends inside the address space (rule R56). -/
theorem admitted_bound {regions : List Region} {p n : Nat} (h : admitted regions p n = true) (hn : n ≠ 0) : p + n ≤ 2 ^ 32 := by
  simp [admitted, hn] at h
  exact h.1

/-- A sub-range of an admitted range is admitted (rule R56). -/
theorem admitted_sub {regions : List Region} {p n q k : Nat} (h : admitted regions p n = true) (hq : p ≤ q) (hk : q + k ≤ p + n) :
    admitted regions q k = true := by
  by_cases hk0 : k = 0
  · subst hk0; simp
  · have hn : n ≠ 0 := by omega
    simp only [admitted, hn, decide_false, Bool.false_or, Bool.and_eq_true, decide_eq_true_eq, List.all_eq_true, List.mem_range] at h
    simp only [admitted, hk0, decide_false, Bool.false_or, Bool.and_eq_true, decide_eq_true_eq, List.all_eq_true, List.mem_range]
    refine ⟨by have := h.1; omega, fun i hi => ?_⟩
    have := h.2 (q - p + i) (by omega)
    rwa [show p + (q - p + i) = q + i by omega] at this

/-- The default platform covers exactly the addresses of the space (rule R55). -/
theorem covered_all (a : Nat) : covered Platform.all.readable a = decide (a < 2 ^ 32) := by
  simp [covered, Platform.all]

end Sys2Proof.Machine
end

