-- ==== Sys2Proof/Laws/PerInstr.lean ====
section
/-! SUPPORT. The family `EncodeLength`: for each command, the words of its encoding are as many as its header announces (rule R84). -/

namespace Sys2Proof.Laws.EncodeLength

/-- The encoding of a well-formed command has the length that `commandLength` reads off its first word. -/
def Statement (i : Instr) : Prop := i.WellFormed = true → (encode i).length = commandLength ((encode i).headD 0)

theorem length_of_select {h : Word} {ws : List Word} {o : Opcode} (hs : selectCommand h = .ok o)
    (hl : ws.length = operandCount o (fieldB h)) : (h :: ws).length = commandLength h := by
  simp [commandLength, hs, hl]; omega

theorem sha1Init : Statement .sha1Init := fun _ =>
  length_of_select (selectCommand_headerWord .sha1Init 0 0 (fun _ => rfl) (fun _ => rfl)) rfl

theorem sha1Update (srcPtr srcLen : Word) : Statement (.sha1Update srcPtr srcLen) := fun _ =>
  length_of_select (selectCommand_headerWord .sha1Update 0 0 (fun _ => rfl) (fun _ => rfl)) rfl

theorem sha1Final (dstPtr : Word) : Statement (.sha1Final dstPtr) := fun _ =>
  length_of_select (selectCommand_headerWord .sha1Final 0 0 (fun _ => rfl) (fun _ => rfl)) rfl

theorem hmac (klen : Byte) (msgPtr msgLen keyPtr dstPtr : Word) : Statement (.hmac klen msgPtr msgLen keyPtr dstPtr) := fun _ =>
  length_of_select (selectCommand_headerWord .hmac klen 0 (fun h => by cases h) (fun _ => rfl)) rfl

theorem hmacv (klen : Byte) (keyPtr dstPtr : Word) (frags : List Fragment) : Statement (.hmacv klen keyPtr dstPtr frags) := fun hw => by
  refine length_of_select
    (selectCommand_headerWord .hmacv klen (BitVec.ofNat 8 frags.length) (fun h => by cases h) (fun h => by cases h)) ?_
  have : frags.length ≤ 255 := by simpa [Instr.WellFormed] using hw
  simp [operandCount]
  omega

theorem auth (size cap : Byte) (bufPtr keyPtr : Word) : Statement (.auth size cap bufPtr keyPtr) := fun _ =>
  length_of_select (selectCommand_headerWord .auth size cap (fun h => by cases h) (fun h => by cases h)) rfl

theorem verify (size : Byte) (bufPtr keyPtr : Word) : Statement (.verify size bufPtr keyPtr) := fun _ =>
  length_of_select (selectCommand_headerWord .verify size 0 (fun h => by cases h) (fun _ => rfl)) rfl

end Sys2Proof.Laws.EncodeLength
end

