-- ==== Sys2Proof/Tests/Slice0.lean ====
section
/-! SUPPORT. The model's own tests. Every expected value comes from the spec: the vectors V2.1 to V7.2 and the programs of
95_test_vectors.md, or the rule named. A theorem named `witness_…` shows that the hypotheses of the obligation of that name can be met,
clause by clause, at the edges of their ranges. -/

namespace Sys2Proof.Tests

open Sys2Proof Sys2Proof.Machine

/-! Helpers -/

/-- A memory with byte sequences written at addresses, zero elsewhere. -/
def placed (cells : List (Nat × List Byte)) : Memory := cells.foldl (fun m c => m.writeBytes c.1 c.2) []

/-- The post-reset state with such a memory and a command stream (rule R231). -/
def begun (cells : List (Nat × List Byte)) (program : List Word) : State := State.launch (placed cells) program

/-- The same with a computation in progress on a context. -/
def hashing (c : Ctx) (cells : List (Nat × List Byte)) : State := ((begun cells []).setHash c).setPhase .active

/-- The same state on a platform that admits no address (vector V7.1). -/
def closed (s : State) : State := { s with platform := { readable := [], writable := [] } }

/-- Whether a step or a command gives a next state that passes a check. -/
def gives (o : Host.Outcome State Fault Refusal) (p : State → Bool) : Bool :=
  match o with
  | .next t => p t
  | .fault f => nomatch f
  | .refused _ => false

/-- A next state that equals `t` is `t`. -/
theorem next_of_gives {o : Host.Outcome State Fault Refusal} {t : State} (h : gives o (fun u => u == t) = true) : o = .next t := by
  cases o with
  | next u => rw [eq_of_beq h]
  | fault f => exact nomatch f
  | refused r => exact absurd h Bool.false_ne_true

/-- The key of section 6 of the vectors: `00 01 … 0f`. -/
def key16 : List Byte := [0x00, 0x01, 0x02, 0x03, 0x04, 0x05, 0x06, 0x07, 0x08, 0x09, 0x0A, 0x0B, 0x0C, 0x0D, 0x0E, 0x0F]

/-- `"hello"`. -/
def hello : List Byte := [0x68, 0x65, 0x6C, 0x6C, 0x6F]

/-- The tag of `"hello"` under `key16` (vector V6.1). -/
def helloTag : List Byte := [0x71, 0x86, 0x53, 0xE7, 0xE9, 0x7B, 0x8C, 0x0A, 0xEA, 0x55]

/-- The SHA-1 of the empty message (vector V3.1). -/
def emptyDigest : List Byte :=
  [0xDA, 0x39, 0xA3, 0xEE, 0x5E, 0x6B, 0x4B, 0x0D, 0x32, 0x55, 0xBF, 0xEF, 0x95, 0x60, 0x18, 0x90, 0xAF, 0xD8, 0x07, 0x09]

/-- The state behind AUTH in vector V6.1: the message, its tag, and the key. -/
def tagged : State := begun [(0x1000, hello ++ helloTag), (0x3000, key16)] []

/-- The context of vector V4.5: 8 bits short of two bytes below `2^64`. -/
def nearlyFull : Ctx :=
  { h := initialWords, lenLo := 0xFFFFFFF0, lenHi := 0xFFFFFFFF, blk := Vector.replicate 64 0, idx := 62 }

/-! WellFormed -/

/-- HMACV with 255 fragments is well formed (rule R82: `count` is 0 to 255). -/
theorem test_wellFormed_hmacv_255 : (Instr.hmacv 0 0 0 (List.replicate 255 { ptr := 0, len := 0 })).WellFormed = true := by decide +kernel

/-- A term that is ill formed: 256 fragments do not fit the field `count`. -/
theorem test_illFormed_hmacv_256 : (Instr.hmacv 0 0 0 (List.replicate 256 { ptr := 0, len := 0 })).WellFormed = false := by decide +kernel

/-! Decoding: each word is written out from rules R81, R82, R83 and R86 as `z`, `b`, `a`, `op` -/

/-- V2.1. -/
theorem test_decode_sha1Init : decode [0b00000000000000000000000000000001] = .command .sha1Init [] := by decide +kernel

/-- V2.2. -/
theorem test_decode_sha1Update :
    decode [0b00000000000000000000000000000010, 0x00001000, 0x00000003] = .command (.sha1Update 0x1000 3) [] := by decide +kernel

/-- V2.3. -/
theorem test_decode_sha1Final : decode [0b00000000000000000000000000000011, 0x00002000] = .command (.sha1Final 0x2000) [] := by
  decide +kernel

/-- V2.4: `klen = 20`, and the operand words in the order of table T-R83. -/
theorem test_decode_hmac :
    decode [0b00000000000000000001010000000100, 0x00001000, 0x00000008, 0x00003000, 0x00002000] =
      .command (.hmac 20 0x1000 8 0x3000 0x2000) [] := by decide +kernel

/-- V2.5: `count = 2`, `klen = 4`. -/
theorem test_decode_hmacv :
    decode [0b00000000000000100000010000000101, 0x00003000, 0x00002000, 0x00001000, 0x00000010, 0x00001100, 0x0000000C] =
      .command (.hmacv 4 0x3000 0x2000 [{ ptr := 0x1000, len := 16 }, { ptr := 0x1100, len := 12 }]) [] := by decide +kernel

/-- V2.6: no fragment, and the word behind the command is left. -/
theorem test_decode_hmacv_none :
    decode [0b00000000000000000000000000000101, 0x00003000, 0x00002000, 0x00000001] =
      .command (.hmacv 0 0x3000 0x2000 []) [0x00000001] := by decide +kernel

/-- V2.8: `size = 250`, `cap = 255`. -/
theorem test_decode_auth :
    decode [0b00000000111111111111101000000110, 0x00001000, 0x00003000] = .command (.auth 250 255 0x1000 0x3000) [] := by
  decide +kernel

/-- V2.10. -/
theorem test_decode_verify :
    decode [0b00000000000000001111111100000111, 0x00001000, 0x00003000] = .command (.verify 255 0x1000 0x3000) [] := by
  decide +kernel

/-- The illegal headers of section 2 of the vectors, each with the reason of rule R87, each one word. -/
theorem test_decode_illegal :
    decode [0x00000000, 5] = .illegal .unknownOpcode [5] ∧ decode [0x00000008, 5] = .illegal .unknownOpcode [5] ∧
    decode [0x000000FF, 5] = .illegal .unknownOpcode [5] ∧ decode [0x01000001, 5] = .illegal .reservedZ [5] ∧
    decode [0x00000101, 5] = .illegal .unusedA [5] ∧ decode [0x00010002, 5] = .illegal .unusedB [5] ∧
    decode [0x00010004, 5] = .illegal .unusedB [5] ∧ decode [0x00010007, 5] = .illegal .unusedB [5] := by decide +kernel

/-- Their nearest legal neighbours. -/
theorem test_decode_neighbours :
    selectCommand 0x00000001 = .ok .sha1Init ∧ selectCommand 0x00000007 = .ok .verify ∧ selectCommand 0x00000104 = .ok .hmac ∧
    selectCommand 0x00010005 = .ok .hmacv ∧ selectCommand 0x00010006 = .ok .auth ∧ selectCommand 0x00004104 = .ok .hmac := by
  refine ⟨?_, ?_, ?_, ?_, ?_, ?_⟩ <;> rfl

/-- A command whose last operand word is missing is incomplete, an empty stream too (rule R90). -/
theorem test_decode_incomplete : decode [0x00000002, 0x1000] = .incomplete ∧ decode [] = .incomplete := by decide +kernel

/-- The host's view of a table word: the 24 bits above `op` are the header's, the operand words above them zero. -/
theorem test_decodeTableWord : decodeTableWord 32 0x00020005 = some (.hmacv 0 0 0 [{ ptr := 0, len := 0 }, { ptr := 0, len := 0 }]) := by
  decide +kernel

/-- An illegal table word gives no instruction. -/
theorem test_decodeTableWord_illegal : decodeTableWord 32 0x00000101 = none := by decide +kernel

/-! The assembler -/

/-- V2.5, from its text. -/
theorem test_assemble_hmacv :
    assemble "HMACV [0x1000:16, 0x1100:12], 0x3000, 4, 0x2000".toList =
      .ok [0x00020405, 0x00003000, 0x00002000, 0x00001000, 0x00000010, 0x00001100, 0x0000000C] := by decide +kernel

/-- The first lines of program P4, comments included. -/
theorem test_assemble_program :
    assemble "SHA1_UPDATE 0x1000, 3   # 0x00000002\n.word 0x01000001  # illegal\nSHA1_INIT\nSHA1_FINAL 0x2000\n".toList =
      .ok [0x00000002, 0x00001000, 0x00000003, 0x01000001, 0x00000001, 0x00000003, 0x00002000] := by decide +kernel

/-- Rule R93: `klen = 65` assembles, `klen = 256` does not. -/
theorem test_assemble_klen :
    asmWords (.hmac 0x1000 0 0x3000 65 0x2100) = .ok [0x00004104, 0x00001000, 0x00000000, 0x00003000, 0x00002100] ∧
    asmWords (.hmac 0x1000 0 0x3000 256 0x2100) = .error .immediateTooLarge ∧
    asmWords (.sha1Final (2 ^ 32)) = .error .wordTooLarge := by decide +kernel

/-- Rule R94: `SHA1` is three commands. -/
theorem test_assemble_sha1 :
    assemble "SHA1 0x1000, 3, 0x2000".toList = .ok [0x00000001, 0x00000002, 0x00001000, 0x00000003, 0x00000003, 0x00002000] := by
  decide +kernel

set_option maxRecDepth 100000
set_option Elab.async false

/-! HashEngine -/

/-- V3.1: selected words of the schedule of the padded empty message. -/
theorem test_schedule :
    (schedule ((Vector.replicate 64 0).set 0 0x80)).getD 16 0 = 0x00000001 ∧
    (schedule ((Vector.replicate 64 0).set 0 0x80)).getD 79 0 = 0x00200080 := by decide +kernel

/-- V3.3: round 0 of `"abc"`. -/
theorem test_hashRound :
    hashRound 0 0x61626380 (startWorking initialWords) =
      { a := 0x0116FC33, b := 0x67452301, c := 0x7BF36AE2, d := 0x98BADCFE, e := 0x10325476 } := by decide +kernel

/-- V4.1: the hash words after 64 bytes of `0x61`. -/
theorem test_compress :
    compress initialWords (Vector.replicate 64 0x61) =
      { h0 := 0xDA4968EB, h1 := 0x2E377C1F, h2 := 0x884E8F52, h3 := 0x83524BEB, h4 := 0xE74EBDBD } := by decide +kernel

/-- V3.3. -/
theorem test_sha1_abc :
    sha1 [0x61, 0x62, 0x63] =
      [0xA9, 0x99, 0x3E, 0x36, 0x47, 0x06, 0x81, 0x6A, 0xBA, 0x3E, 0x25, 0x71, 0x78, 0x50, 0xC2, 0x6C, 0x9C, 0xD0, 0xD8, 0x9D] := by
  decide +kernel

/-- V4.1, 56 bytes: the padding needs a second block. -/
theorem test_sha1_two_final_blocks :
    sha1 (List.replicate 56 0x61) =
      [0xC2, 0xDB, 0x33, 0x0F, 0x60, 0x83, 0x85, 0x4C, 0x99, 0xD4, 0xB5, 0xBF, 0xB6, 0xE8, 0xF2, 0x9F, 0x20, 0x1B, 0xE6, 0x99] := by
  decide +kernel

/-- V4.3: the carry of the counter, at the function `ctx_update`. -/
theorem test_counter_carry :
    (ctxUpdate { nearlyFull with lenLo := 0xFFFFFFF8, lenHi := 0, idx := 63 } [0x00]).lenLo = 0 ∧
    (ctxUpdate { nearlyFull with lenLo := 0xFFFFFFF8, lenHi := 0, idx := 63 } [0x00]).lenHi = 1 ∧
    (ctxUpdate { nearlyFull with lenLo := 0xFFFFFFF8, lenHi := 0, idx := 63 } [0x00]).idx = 0 := by decide +kernel

/-- V4.4, first context: the byte order of the length field. -/
theorem test_length_field :
    ctxDigest { ctxInit with lenHi := 1 } =
      [0xE1, 0xF4, 0x00, 0x73, 0x31, 0x64, 0xED, 0x16, 0x42, 0x43, 0x7F, 0xFC, 0xE1, 0x2E, 0xCD, 0x02, 0x4A, 0xC9, 0x7E, 0xF2] := by
  decide +kernel

/-- V4.6: SHA1_INIT in the idle and in the active phase. -/
theorem test_sha1Init :
    gives (exec .sha1Init State.reset) (fun t => t.phase == .active && t.rspq == [0] && t.hs == ctxInit) = true ∧
    gives (exec .sha1Init (hashing nearlyFull [])) (fun t => t.phase == .active && t.rspq == [0] && t.hs == ctxInit) = true := by
  decide +kernel

/-- V4.2 a: what SHA1_UPDATE leaves in the context. -/
theorem test_sha1Update :
    gives (exec (.sha1Update 0x1000 3) (hashing ctxInit [(0x1000, [0x61, 0x62, 0x63])])) (fun t =>
      t.hs.blk.toList.take 4 == [0x61, 0x62, 0x63, 0x00] && t.hs.idx == 3 && t.hs.lenLo == 0x18 && t.hs.lenHi == 0 &&
        t.hs.h == initialWords && t.rspq == [0]) = true := by decide +kernel

/-- V4.5: one byte still fits, two do not, none does. -/
theorem test_sha1Update_overflow :
    gives (exec (.sha1Update 0x1000 1) (hashing nearlyFull [])) (fun t =>
      t.rspq == [0] && t.hs.lenLo == 0xFFFFFFF8 && t.hs.idx == 63) = true ∧
    gives (exec (.sha1Update 0x1000 2) (hashing nearlyFull [])) (fun t => t.rspq == [0x700] && t.hs == nearlyFull) = true ∧
    gives (exec (.sha1Update 0x1000 0) (hashing { nearlyFull with lenLo := 0xFFFFFFF8, idx := 63 } []))
      (fun t => t.rspq == [0]) = true := by decide +kernel

/-- V4.6 and V3.1: SHA1_FINAL writes the digest, and the phase is idle after it. -/
theorem test_sha1Final :
    gives (exec (.sha1Final 0x2000) (hashing ctxInit [])) (fun t =>
      t.rspq == [0] && t.phase == .idle && t.hs.lenLo == 0 && t.hs.idx == 0 && t.mem.readBytes 0x2000 20 == emptyDigest) = true := by
  decide +kernel

/-- V7.2: a destination that ends at `2^32 + 1` is not admitted and the phase stays active; one that ends at `2^32` is. -/
theorem test_sha1Final_edge :
    gives (exec (.sha1Final 0xFFFFFFED) (hashing ctxInit [])) (fun t => t.rspq == [0x600] && t.phase == .active && t.mem == []) = true ∧
    gives (exec (.sha1Final 0xFFFFFFEC) (hashing ctxInit [])) (fun t => t.rspq == [0] && t.phase == .idle) = true := by decide +kernel

/-! HmacEngine -/

/-- V5.1. -/
theorem test_hmac :
    gives (exec (.hmac 20 0x1000 8 0x3000 0x2000)
      (begun [(0x1000, [0x48, 0x69, 0x20, 0x54, 0x68, 0x65, 0x72, 0x65]), (0x3000, List.replicate 20 0x0B)] [])) (fun t =>
        t.rspq == [0] && t.mem.readBytes 0x2000 20 ==
          [0xB6, 0x17, 0x31, 0x86, 0x55, 0x05, 0x72, 0x64, 0xE2, 0x8B, 0xC0, 0xB6, 0xFB, 0x37, 0x8C, 0x8E, 0xF1, 0x46, 0xBE, 0x00]) =
      true := by decide +kernel

/-- V5.4: a destination inside the message gets the digest of the message as it was. -/
theorem test_hmac_overlap :
    gives (exec (.hmac 16 0x1000 24 0x3000 0x1004)
      (begun [(0x1000, hello ++ [0x20, 0x77, 0x6F, 0x72, 0x6C, 0x64, 0x2C, 0x20] ++ hello ++ [0x20, 0x77, 0x6F, 0x72, 0x6C, 0x64]),
        (0x3000, key16)] [])) (fun t =>
        t.rspq == [0] && t.mem.readBytes 0x1004 20 ==
          [0xC9, 0x86, 0xD1, 0x01, 0xAC, 0x10, 0x26, 0xD3, 0x21, 0x8B, 0xFB, 0x97, 0x48, 0xEC, 0xB3, 0x68, 0x18, 0x06, 0x81, 0x4E]) =
      true := by decide +kernel

/-- V5.3, key `"Jefe"`, in two fragments. -/
theorem test_hmacv :
    gives (exec (.hmacv 4 0x3000 0x2000 [{ ptr := 0x1000, len := 16 }, { ptr := 0x1100, len := 12 }])
      (begun [(0x1000, [0x77, 0x68, 0x61, 0x74, 0x20, 0x64, 0x6F, 0x20, 0x79, 0x61, 0x20, 0x77, 0x61, 0x6E, 0x74, 0x20]),
        (0x1100, [0x66, 0x6F, 0x72, 0x20, 0x6E, 0x6F, 0x74, 0x68, 0x69, 0x6E, 0x67, 0x3F]), (0x3000, [0x4A, 0x65, 0x66, 0x65])] []))
      (fun t => t.rspq == [0] && t.mem.readBytes 0x2000 20 ==
        [0xEF, 0xFC, 0xDF, 0x6A, 0xE5, 0xEB, 0x2F, 0xA2, 0xD2, 0x74, 0x16, 0xD5, 0xF1, 0x84, 0xDF, 0x9C, 0x25, 0x9A, 0x7C, 0x79]) =
      true := by decide +kernel

/-- V5.3, no key and no fragment. -/
theorem test_hmacv_empty :
    gives (exec (.hmacv 0 0x3000 0x2000 []) State.reset) (fun t => t.rspq == [0] && t.mem.readBytes 0x2000 20 ==
      [0xFB, 0xDB, 0x1D, 0x1B, 0x18, 0xAA, 0x6C, 0x08, 0x32, 0x4B, 0x7D, 0x64, 0xB7, 0x1F, 0xB7, 0x63, 0x70, 0x69, 0x0E, 0x1D]) =
      true := by decide +kernel

/-! TagCodec -/

/-- V6.1: AUTH. -/
theorem test_auth :
    gives (exec (.auth 5 32 0x1000 0x3000) (begun [(0x1000, hello), (0x3000, key16)] [])) (fun t =>
      t.rspq == [0x0F] && t.mem.readBytes 0x1000 16 == hello ++ helloTag ++ [0x00]) = true := by decide +kernel

/-- V6.7: a capacity one too small, and a size one too large. -/
theorem test_auth_capacity :
    gives (exec (.auth 245 254 0x1000 0x3000) State.reset) (fun t => t.rspq == [0x100] && t.mem == []) = true ∧
    gives (exec (.auth 246 255 0x1000 0x3000) State.reset) (fun t => t.rspq == [0x100] && t.mem == []) = true ∧
    gives (exec (.auth 0 9 0x1000 0x3000) State.reset) (fun t => t.rspq == [0x100] && t.mem == []) = true := by decide +kernel

/-- V6.1: VERIFY. -/
theorem test_verify : exec (.verify 15 0x1000 0x3000) tagged = .next { tagged with rspq := [0x05] } :=
  next_of_gives (by decide +kernel)

/-- V6.9: the right bytes with the wrong total size. -/
theorem test_verify_wrong_size :
    gives (exec (.verify 14 0x1000 0x3000) tagged) (fun t => t == { tagged with rspq := [0x200] }) = true := by decide +kernel

/-! The step, the failures and the host's moves -/

/-- V7.1: with no address admitted, the checks that come before memory. -/
theorem test_priority :
    gives (exec (.verify 10 0x1000 0x3000) (closed State.reset)) (fun t => t.rspq == [0x200]) = true ∧
    gives (exec (.auth 250 255 0x1000 0x3000) (closed State.reset)) (fun t => t.rspq == [0x100]) = true ∧
    gives (exec (.hmac 65 0x1000 8 0x3000 0x2000) (closed State.reset)) (fun t => t.rspq == [0x500]) = true ∧
    gives (exec (.sha1Update 0x1000 3) (closed State.reset)) (fun t => t.rspq == [0x400]) = true ∧
    gives (exec (.verify 11 0x1000 0x3000) (closed State.reset)) (fun t => t.rspq == [0x600]) = true ∧
    gives (exec (.auth 1 11 0x1000 0x3000) (closed State.reset)) (fun t => t.rspq == [0x600]) = true ∧
    gives (exec (.hmacv 0 0x3000 0x2000 []) (closed State.reset)) (fun t => t.rspq == [0x600]) = true := by decide +kernel

/-- Rule R88: an illegal header is one word, and its response is `0x300`. -/
theorem test_step_illegal : gives (step (begun [] [0x01000001, 0x00000001])) (fun t => t.rspq == [0x300] && t.cmdq == [0x00000001]) = true := by
  decide +kernel

/-- Rule R90: a command that lacks a word changes nothing. -/
theorem test_step_waits : gives (step (begun [] [0x00000002, 0x1000])) (fun t => t == begun [] [0x00000002, 0x1000]) = true := by
  decide +kernel

/-- The host's query: the word 0x00020005 runs as the first instruction after reset. -/
theorem test_step_withFetchWord : gives (step (State.reset.withFetchWord 32 0x00020005)) (fun t => t.rspq == [0] && t.cmdq == []) = true := by
  decide +kernel

/-- Rule R230: reset between commands keeps memory and empties both streams. -/
theorem test_platformReset :
    (begun [(0x1000, hello)] [0x00000002]).platformReset.mem = placed [(0x1000, hello)] ∧
    (begun [(0x1000, hello)] [0x00000002]).platformReset.cmdq = [] ∧ (hashing ctxInit []).platformReset.phase = .idle :=
  ⟨rfl, rfl, rfl⟩

/-- The canonical form of memory: writing the unlisted value removes the entry. -/
theorem test_memory_canonical : placed [(0x1000, [0x01, 0x02]), (0x1000, [0x00])] = [(0x1001, 0x02)] := by decide +kernel

/-! Witnesses: encoding -/

/-- The longest command, HMACV with 255 fragments. -/
theorem witness_DecodeOfEncodeIsTheCommand :
    (Instr.hmacv 64 0x3000 0x2000 (List.replicate 255 { ptr := 0xFFFFFFFF, len := 0 })).WellFormed = true := by decide +kernel

theorem witness_DecodedWordsAreTheEncoding :
    decode [0x00FFFF06, 0xFFFFFFFF, 0, 0x00000001] = .command (.auth 255 255 0xFFFFFFFF 0) [0x00000001] := by decide +kernel

theorem witness_HeaderLayout :
    fieldZ 0x01000001 ≠ 0 ∧ fieldZ 0xFF000001 ≠ 0 ∧ selectCommand 0x00FFFF06 = .ok .auth := ⟨by decide +kernel, by decide +kernel, rfl⟩

theorem witness_HeaderSelectsRowByMask :
    (fieldOp 0x00000000).toNat = 0 ∧ 8 ≤ (fieldOp 0x00000008).toNat ∧
    decode (0x0001FF05 :: [1, 2, 3, 4, 5]) = .command (.hmacv 255 1 2 [{ ptr := 3, len := 4 }]) [5] := by decide +kernel

theorem witness_IllegalHeaderIffReserved :
    ((begun [] [0x00000008]).cmdq = 0x00000008 :: [] ∧ ∃ why, selectCommand 0x00000008 = .error why) ∧
    (selectCommand 0x00FFFF06 = .ok .auth ∧ commandLength 0x00FFFF06 ≤ (0x00FFFF06 :: [(0 : Word), 0]).length) ∧
    (64 < (65 : Byte).toNat ∧
      decode (0x00004104 :: [1, 2, 3, 4, 5]) = .command (.hmac 65 1 2 3 4) [5] ∧
      (begun [] (0x00004104 :: [1, 2, 3, 4, 5])).cmdq = 0x00004104 :: [1, 2, 3, 4, 5]) ∧
    (64 < (255 : Byte).toNat ∧ decode (0x0000FF05 :: [1, 2, 3]) = .command (.hmacv 255 1 2 []) [3] ∧
      (begun [] (0x0000FF05 :: [1, 2, 3])).cmdq = 0x0000FF05 :: [1, 2, 3]) :=
  ⟨⟨rfl, _, rfl⟩, ⟨rfl, by decide +kernel⟩, by decide +kernel, by decide +kernel⟩

/-- One witness for each clause; for HMACV the shortest and the longest. -/
theorem witness_CommandLengths :
    selectCommand 0x00000001 = .ok .sha1Init ∧ selectCommand 0x00000002 = .ok .sha1Update ∧ selectCommand 0x00000003 = .ok .sha1Final ∧
    selectCommand 0x0000FF04 = .ok .hmac ∧ selectCommand 0x00000005 = .ok .hmacv ∧ selectCommand 0x00FFFF05 = .ok .hmacv ∧
    selectCommand 0x00FFFF06 = .ok .auth ∧ selectCommand 0x0000FF07 = .ok .verify ∧ (∃ why, selectCommand 0x00010007 = .error why) ∧
    decode (0x00000003 :: [0x2000, 0x00000001]) = .command (.sha1Final 0x2000) [0x00000001] ∧
    decode (0x00010007 :: [0x00000001]) = .illegal .unusedB [0x00000001] := by
  refine ⟨?_, ?_, ?_, ?_, ?_, ?_, ?_, ?_, ⟨.unusedB, ?_⟩, ?_, ?_⟩ <;> rfl

/-- Every form, with the immediates and the words at the ends of their ranges; the words are written from table T-R83. -/
theorem witness_AssembledLinesDecode :
    asmWords (.word 0xFFFFFFFF) = .ok [0xFFFFFFFF] ∧
    asmWords .sha1Init = .ok [0x00000001] ∧
    asmWords (.sha1Update 0x1000 0) = .ok [0x00000002, 0x00001000, 0] ∧
    asmWords (.sha1Final 0xFFFFFFFF) = .ok [0x00000003, 0xFFFFFFFF] ∧
    asmWords (.hmac 0x1000 8 0x3000 255 0x2000) = .ok [0x0000FF04, 0x00001000, 8, 0x00003000, 0x00002000] ∧
    asmWords (.hmacv [(0x1000, 4)] 0x3000 255 0x2000) = .ok [0x0001FF05, 0x00003000, 0x00002000, 0x00001000, 4] ∧
    asmWords (.hmacv [] 0x3000 0 0x2000) = .ok [0x00000005, 0x00003000, 0x00002000] ∧
    asmWords (.auth 0x1000 0 255 0x3000) = .ok [0x00FF0006, 0x00001000, 0x00003000] ∧
    asmWords (.verify 0x1000 255 0x3000) = .ok [0x0000FF07, 0x00001000, 0x00003000] ∧
    asmWords (.sha1 0x1000 3 0xFFFFFFFF) = .ok [0x00000001, 0x00000002, 0x00001000, 3, 0x00000003, 0xFFFFFFFF] ∧
    asmWords (.sha1Empty 0x2000) = .ok [0x00000001, 0x00000003, 0x00002000] ∧
    ∀ w, AsmLine.sha1Empty 0x2000 ≠ .word w := by
  refine ⟨?_, ?_, ?_, ?_, ?_, ?_, ?_, ?_, ?_, ?_, ?_, by simp⟩ <;> rfl

/-! Witnesses: the step -/

theorem witness_StepRunsDecodedCommand :
    decode (begun [] [0x00000003, 0x00002000, 0x00000001]).cmdq = .command (.sha1Final 0x2000) [0x00000001] := by decide +kernel

theorem witness_IllegalHeaderConsumesOneWord :
    (begun [] [0x00000101, 0x00000001]).cmdq = 0x00000101 :: [0x00000001] ∧ selectCommand 0x00000101 = .error .unusedA := ⟨rfl, rfl⟩

/-- No word, all words but one, and all words. -/
theorem witness_IncompleteCommandWaits :
    (Instr.sha1Update 0x1000 3).WellFormed = true ∧
    ((begun [] []).cmdq = (encode (.sha1Update 0x1000 3)).take 0 ∧ 0 < (encode (.sha1Update 0x1000 3)).length) ∧
    ((begun [] [0x00000002, 0x1000]).cmdq = (encode (.sha1Update 0x1000 3)).take 2 ∧ 2 < (encode (.sha1Update 0x1000 3)).length) ∧
    (begun [] [0x00000002, 0x1000, 3]).cmdq = (encode (.sha1Update 0x1000 3)).take 3 := by decide +kernel

theorem witness_StreamExecutesInOrder :
    (∀ i ∈ [Instr.sha1Init, .sha1Final 0x2000], i.WellFormed = true) ∧
    (begun [] [0x00000001, 0x00000003, 0x00002000, 0x00000002]).cmdq =
      [Instr.sha1Init, .sha1Final 0x2000].flatMap encode ++ [0x00000002] := by decide +kernel

/-- An active state, at an edge of the counters. -/
theorem witness_InvariantKeptByStep :
    Inv { hashing nearlyFull [(0x1000, hello)] with cmdq := [0x00000001], rspq := [0x700] } ∧
    step { hashing nearlyFull [(0x1000, hello)] with cmdq := [0x00000001], rspq := [0x700] } =
      .next { hashing ctxInit [(0x1000, hello)] with rspq := [0x700, 0] } := by
  refine ⟨⟨by decide +kernel, fun _ => by decide +kernel, fun w hw => ?_⟩, next_of_gives (by decide +kernel)⟩
  rw [List.mem_singleton.mp hw]
  decide +kernel

/-- A failing command, and an illegal header. -/
theorem witness_FailureChangesNothing :
    (decode (begun [] [0x00000003, 0x00002000]).cmdq = .command (.sha1Final 0x2000) [] ∧
      step (begun [] [0x00000003, 0x00002000]) = .next { State.reset with rspq := [0x400] } ∧
      ({ State.reset with rspq := [0x400] } : State).rspq = (begun [] [0x00000003, 0x00002000]).rspq ++ [0x400] ∧
      responseStatus 0x400 ≠ 0) ∧
    decode (begun [] [0x000000FF]).cmdq = .illegal .unknownOpcode [] :=
  ⟨⟨by decide +kernel, next_of_gives (by decide +kernel), rfl, by decide⟩, by decide +kernel⟩

/-! Witnesses: what a command touches -/

theorem witness_CommandsWriteOnlyTheirRanges :
    exec (.verify 15 0x1000 0x3000) tagged = .next { tagged with rspq := [0x05] } ∧
    ∀ r ∈ writeRanges (.auth 5 32 0x1000 0x3000), inRange r 0x1004 = false ∧ inRange r 0x1005 = true ∧ inRange r 0x100E = true ∧
      inRange r 0x100F = false := ⟨test_verify, by decide +kernel⟩

/-- Memories that differ at the first byte behind the range. -/
theorem witness_CommandsReadOnlyTheirRanges :
    ∀ r ∈ readRanges (.sha1Update 0x1000 3), ∀ a, inRange r a = true →
      (placed [(0x1000, [0x61, 0x62, 0x63, 0xFF])]).read a = (hashing ctxInit [(0x1000, [0x61, 0x62, 0x63])]).mem.read a := by
  intro r hr a ha
  simp only [readRanges, List.mem_singleton] at hr
  subst hr
  simp only [inRange, Bool.and_eq_true, decide_eq_true_eq, show (0x1000 : Word).toNat = 0x1000 from rfl,
    show (3 : Word).toNat = 3 from rfl] at ha
  obtain rfl | rfl | rfl : a = 0x1000 ∨ a = 0x1001 ∨ a = 0x1002 := by omega
  all_goals decide +kernel

theorem witness_KeyedCommandsIgnoreHashState :
    (match Instr.verify 15 0x1000 0x3000 with
      | .sha1Init => False
      | .sha1Update _ _ => False
      | .sha1Final _ => False
      | .hmac _ _ _ _ _ => True
      | .hmacv _ _ _ _ => True
      | .auth _ _ _ _ => True
      | .verify _ _ _ => True) ∧
    exec (.verify 15 0x1000 0x3000) tagged = .next { tagged with rspq := [0x05] } := ⟨trivial, test_verify⟩

theorem witness_IdleHashStateUnobservable :
    State.reset.phase = .idle ∧
    exec .sha1Init State.reset = .next { State.reset with hs := ctxInit, phase := .active, rspq := [0] } := ⟨rfl, rfl⟩

/-- Two contexts that differ in the last stale byte. -/
theorem witness_StaleBlockBytesUnobservable :
    ({ ctxInit with blk := (Vector.replicate 64 0).set 63 0xFF } : Ctx).h = ctxInit.h ∧
    ({ ctxInit with blk := (Vector.replicate 64 0).set 63 0xFF } : Ctx).lenLo = ctxInit.lenLo ∧
    ({ ctxInit with blk := (Vector.replicate 64 0).set 63 0xFF } : Ctx).lenHi = ctxInit.lenHi ∧
    ({ ctxInit with blk := (Vector.replicate 64 0).set 63 0xFF } : Ctx).idx = ctxInit.idx ∧
    ∀ i, i < ctxInit.idx.val →
      blockByte ({ ctxInit with blk := (Vector.replicate 64 0).set 63 0xFF } : Ctx).blk i = blockByte ctxInit.blk i :=
  ⟨rfl, rfl, rfl, rfl, fun _ h => absurd h (Nat.not_lt_zero _)⟩

/-- An empty range at the top, a range that ends at `2^32`, one that ends at `2^32 + 1`, and a range on a platform that admits nothing. -/
theorem witness_RangeAdmission :
    readOk (closed State.reset) 0xFFFFFFFF 0 = true ∧ readOk State.reset 0xFFFFFFF0 0x10 = true ∧
    readOk State.reset 0xFFFFFFF0 0x11 = false ∧ readOk (closed State.reset) 0x1000 1 = false ∧
    writeOk State.reset 0xFFFFFFEC 20 = true ∧ writeOk State.reset 0xFFFFFFED 20 = false ∧
    writeOk (closed State.reset) 0x2000 20 = false := by decide +kernel

/-! Witnesses: HashEngine -/

/-- The first and the last place of each clause. -/
theorem witness_ScheduleOfABlock : (0 < 16 ∧ 15 < 16) ∧ (0 < 4 ∧ 3 < 4) ∧ (16 ≤ 16 ∧ 16 < 80) ∧ (16 ≤ 79 ∧ 79 < 80) := by decide

/-- The first and the last round of each stage. -/
theorem witness_StageFunctionsAndConstants :
    (0 < 20 ∧ 19 < 20) ∧ (20 ≤ 20 ∧ 39 < 40) ∧ (40 ≤ 40 ∧ 59 < 60) ∧ (60 ≤ 60 ∧ 79 < 80) := by decide

theorem witness_CompressIsEightyRounds :
    ∃ r : Working, r = (List.range 80).foldl (fun r t => hashRound t ((schedule (Vector.replicate 64 0x61)).getD t 0) r)
      { a := initialWords.h0, b := initialWords.h1, c := initialWords.h2, d := initialWords.h3, e := initialWords.h4 } := ⟨_, rfl⟩

/-- One byte below the limit of the counter. -/
theorem witness_CounterCountsBits :
    bitLength nearlyFull % 8 = 0 ∧ bitLength nearlyFull + 8 * [(0x00 : Byte)].length < 2 ^ 64 := by decide +kernel

/-- One byte below a full block and two below; and the block byte at the last place below `IDX` of a message. -/
theorem witness_FillIndexAdvances :
    ({ nearlyFull with idx := 63 } : Ctx).idx.val = 63 ∧ nearlyFull.idx.val < 63 ∧ 4 < hello.length % 64 := by decide +kernel

/-- The last fill index that needs one block, the first that needs two, and the places at the edges of each clause. -/
theorem witness_PaddingOfAContext :
    (({ nearlyFull with idx := 55 } : Ctx).idx.val ≤ 55 ∧ 54 < ({ nearlyFull with idx := 55 } : Ctx).idx.val) ∧
    (ctxInit.idx.val ≤ 55 ∧ ctxInit.idx.val < 1 ∧ 55 < 56) ∧ (56 ≤ ({ nearlyFull with idx := 56 } : Ctx).idx.val) ∧
    (56 ≤ nearlyFull.idx.val ∧ nearlyFull.idx.val < 63 ∧ 63 < 64) ∧ (0 < 4 ∧ 3 < 4) := by decide +kernel

theorem witness_StreamingEqualsClosedForm : hello.length < 2 ^ 61 := by decide

/-- Two fragments, one of them empty at the top of memory, and a destination that ends at `2^32`. -/
theorem witness_CommandSequenceHashes :
    fragmentsOk tagged [{ ptr := 0x1000, len := 5 }, { ptr := 0xFFFFFFFF, len := 0 }] = true ∧
    writeOk tagged (0xFFFFFFEC : Word).toNat 20 = true ∧
    ((([{ ptr := 0x1000, len := 5 }, { ptr := 0xFFFFFFFF, len := 0 }] : List Fragment).map (readFragment tagged.mem)).flatten).length <
      2 ^ 61 := by decide +kernel

/-- Idle; active and not admitted; active, admitted and just too long; active, admitted and just short enough. -/
theorem witness_Sha1UpdateOutcome :
    State.reset.phase = .idle ∧
    ((hashing nearlyFull []).phase = .active ∧ readOk (hashing nearlyFull []) (0xFFFFFFF0 : Word).toNat (0x11 : Word).toNat = false) ∧
    ((hashing nearlyFull []).phase = .active ∧ readOk (hashing nearlyFull []) (0xFFFFFFF0 : Word).toNat (2 : Word).toNat = true ∧
      2 ^ 64 ≤ (hashing nearlyFull []).hs.lenHi.toNat * 2 ^ 32 + (hashing nearlyFull []).hs.lenLo.toNat + 8 * (2 : Word).toNat) ∧
    ((hashing nearlyFull []).phase = .active ∧ readOk (hashing nearlyFull []) (0xFFFFFFF0 : Word).toNat (1 : Word).toNat = true ∧
      (hashing nearlyFull []).hs.lenHi.toNat * 2 ^ 32 + (hashing nearlyFull []).hs.lenLo.toNat + 8 * (1 : Word).toNat < 2 ^ 64) := by
  decide +kernel

/-- Idle; active and not admitted; active and admitted. -/
theorem witness_Sha1FinalOutcome :
    State.reset.phase = .idle ∧
    ((hashing ctxInit []).phase = .active ∧ writeOk (hashing ctxInit []) (0xFFFFFFED : Word).toNat 20 = false) ∧
    (hashing ctxInit []).phase = .active ∧ writeOk (hashing ctxInit []) (0xFFFFFFEC : Word).toNat 20 = true ∧ 3 < 4 := by decide +kernel

/-! Witnesses: HmacEngine -/

/-- The longest key, an empty key, a key byte at its last place and a pad byte at the first place behind a key. -/
theorem witness_PadsOfAKey :
    (List.replicate 64 (0x0B : Byte)).length ≤ 64 ∧ ([] : List Byte).length ≤ 64 ∧ 63 < (List.replicate 64 (0x0B : Byte)).length ∧
    ((List.replicate 20 (0x0B : Byte)).length ≤ 20 ∧ 20 < 64) := by decide +kernel

/-- The longest key and a destination that ends at `2^32`. -/
theorem witness_HmacvCompletes :
    (64 : Byte).toNat ≤ 64 ∧ readOk tagged (0x3000 : Word).toNat (64 : Byte).toNat = true ∧
    fragmentsOk tagged [{ ptr := 0x1000, len := 5 }, { ptr := 0x1005, len := 10 }] = true ∧
    writeOk tagged (0xFFFFFFEC : Word).toNat 20 = true := by decide +kernel

theorem witness_HmacCompletes :
    (64 : Byte).toNat ≤ 64 ∧ readOk tagged (0x3000 : Word).toNat (64 : Byte).toNat = true ∧
    readOk tagged (0x1000 : Word).toNat (5 : Word).toNat = true ∧ writeOk tagged (0xFFFFFFEC : Word).toNat 20 = true := by decide +kernel

/-! Witnesses: TagCodec -/

/-- The largest message in the largest capacity, and the empty message in the smallest. -/
theorem witness_AuthCompletes :
    ((245 : Byte).toNat + 10 ≤ (255 : Byte).toNat ∧ readOk State.reset (0x3000 : Word).toNat 16 = true ∧
      readOk State.reset (0xFFFFFF01 : Word).toNat (245 : Byte).toNat = true ∧
      writeOk State.reset ((0xFFFFFF01 : Word).toNat + (245 : Byte).toNat) 10 = true) ∧
    ((0 : Byte).toNat + 10 ≤ (10 : Byte).toNat ∧ readOk State.reset (0x1000 : Word).toNat (0 : Byte).toNat = true ∧
      writeOk State.reset ((0x1000 : Word).toNat + (0 : Byte).toNat) 10 = true) := by decide +kernel

/-- The tag of vector V6.1 accepted; the zero bytes behind one payload byte of empty memory not the tag. -/
theorem witness_VerifyAcceptsExactlyTheTag :
    ((15 : Byte).toNat = 5 + 10 ∧ 1 ≤ 5 ∧ readOk tagged (0x3000 : Word).toNat 16 = true ∧
      readOk tagged (0x1000 : Word).toNat (15 : Byte).toNat = true ∧
      tagged.mem.readBytes ((0x1000 : Word).toNat + 5) 10 =
        tag (tagged.mem.readBytes (0x3000 : Word).toNat 16) (tagged.mem.readBytes (0x1000 : Word).toNat 5)) ∧
    ((11 : Byte).toNat = 1 + 10 ∧ 1 ≤ 1 ∧ readOk State.reset (0x3000 : Word).toNat 16 = true ∧
      readOk State.reset (0x1000 : Word).toNat (11 : Byte).toNat = true ∧
      State.reset.mem.readBytes ((0x1000 : Word).toNat + 1) 10 ≠
        tag (State.reset.mem.readBytes (0x3000 : Word).toNat 16) (State.reset.mem.readBytes (0x1000 : Word).toNat 1)) := by decide +kernel

/-- Vector V6.1: the state behind AUTH is `tagged` with the response 15, and VERIFY runs in that state. The last lines are the completion
clause at both ends of the sizes and capacities. -/
theorem witness_AuthThenVerifyAccepts :
    1 ≤ (5 : Byte).toNat ∧ (5 : Byte).toNat ≤ 245 ∧
    exec (.auth 5 32 0x1000 0x3000) (begun [(0x1000, hello), (0x3000, key16)] []) = .next { tagged with rspq := [0x0F] } ∧
    ({ tagged with rspq := [0x0F] } : State).rspq =
      (begun [(0x1000, hello), (0x3000, key16)] []).rspq ++ [BitVec.ofNat 32 ((5 : Byte).toNat + 10)] ∧
    tagged.mem.readBytes (0x1000 : Word).toNat ((5 : Byte).toNat + 10) =
      ({ tagged with rspq := [0x0F] } : State).mem.readBytes (0x1000 : Word).toNat ((5 : Byte).toNat + 10) ∧
    tagged.mem.readBytes (0x3000 : Word).toNat 16 = (begun [(0x1000, hello), (0x3000, key16)] []).mem.readBytes (0x3000 : Word).toNat 16 ∧
    readOk tagged (0x3000 : Word).toNat 16 = true ∧ readOk tagged (0x1000 : Word).toNat ((5 : Byte).toNat + 10) = true ∧
    ((0 : Byte).toNat + 10 ≤ (10 : Byte).toNat ∧ readOk tagged (0x3000 : Word).toNat 16 = true ∧
      readOk tagged (0x1000 : Word).toNat (0 : Byte).toNat = true ∧ writeOk tagged ((0x1000 : Word).toNat + (0 : Byte).toNat) 10 = true) ∧
    ((245 : Byte).toNat + 10 ≤ (255 : Byte).toNat ∧ readOk tagged (0x1000 : Word).toNat (245 : Byte).toNat = true ∧
      writeOk tagged ((0x1000 : Word).toNat + (245 : Byte).toNat) 10 = true) :=
  ⟨by decide, by decide, next_of_gives (by decide +kernel), rfl, rfl, by decide +kernel, by decide +kernel, by decide +kernel,
    by decide +kernel, by decide +kernel⟩

/-- Vector V6.4, the shortest message that comes back: the state behind AUTH. -/
def taggedShort : State :=
  begun [(0x1000, [0x41, 0x73, 0xC0, 0x03, 0xBC, 0xB3, 0x76, 0x87, 0x34, 0x27, 0x1A]), (0x3000, key16)] []

/-- The first clause at its smallest size. -/
theorem witness_AuthThenVerifyAccepts_size_1 :
    1 ≤ (1 : Byte).toNat ∧ (1 : Byte).toNat ≤ 245 ∧
    exec (.auth 1 11 0x1000 0x3000) (begun [(0x1000, [0x41]), (0x3000, key16)] []) = .next { taggedShort with rspq := [0x0B] } ∧
    ({ taggedShort with rspq := [0x0B] } : State).rspq =
      (begun [(0x1000, [0x41]), (0x3000, key16)] []).rspq ++ [BitVec.ofNat 32 ((1 : Byte).toNat + 10)] ∧
    taggedShort.mem.readBytes (0x1000 : Word).toNat ((1 : Byte).toNat + 10) =
      ({ taggedShort with rspq := [0x0B] } : State).mem.readBytes (0x1000 : Word).toNat ((1 : Byte).toNat + 10) ∧
    taggedShort.mem.readBytes (0x3000 : Word).toNat 16 =
      (begun [(0x1000, [0x41]), (0x3000, key16)] []).mem.readBytes (0x3000 : Word).toNat 16 ∧
    readOk taggedShort (0x3000 : Word).toNat 16 = true ∧ readOk taggedShort (0x1000 : Word).toNat ((1 : Byte).toNat + 10) = true :=
  ⟨by decide, by decide, next_of_gives (by decide +kernel), rfl, rfl, by decide +kernel, by decide +kernel, by decide +kernel⟩

/-- The message of vector V6.6: byte `i` is `(7·i + 3) mod 256`. -/
def longMessage : List Byte := (List.range 245).map (fun i => BitVec.ofNat 8 (7 * i + 3))

/-- Bytes at `0x1000` and the key at `0x3000`, as the canonical list itself. -/
def listed (bs : List Byte) : State :=
  State.launch (((List.range bs.length).zip bs ++ (List.range 16).map (fun i => (0x2000 + i, BitVec.ofNat 8 i))).filterMap
    (fun c : Nat × Byte => if c.2 = 0 then none else some (0x1000 + c.1, c.2))) []

/-- Vector V6.6, the longest message: the state behind AUTH. -/
def taggedLong : State := listed (longMessage ++ [0x65, 0x14, 0xB6, 0x45, 0xE3, 0x3F, 0xD3, 0xB6, 0x94, 0xC3])

/-- The first clause at its largest size. -/
theorem witness_AuthThenVerifyAccepts_size_245 :
    1 ≤ (245 : Byte).toNat ∧ (245 : Byte).toNat ≤ 245 ∧
    exec (.auth 245 255 0x1000 0x3000) (listed longMessage) = .next { taggedLong with rspq := [0xFF] } ∧
    ({ taggedLong with rspq := [0xFF] } : State).rspq =
      (listed longMessage).rspq ++ [BitVec.ofNat 32 ((245 : Byte).toNat + 10)] ∧
    taggedLong.mem.readBytes (0x1000 : Word).toNat ((245 : Byte).toNat + 10) =
      ({ taggedLong with rspq := [0xFF] } : State).mem.readBytes (0x1000 : Word).toNat ((245 : Byte).toNat + 10) ∧
    taggedLong.mem.readBytes (0x3000 : Word).toNat 16 =
      (listed longMessage).mem.readBytes (0x3000 : Word).toNat 16 ∧
    readOk taggedLong (0x3000 : Word).toNat 16 = true ∧ readOk taggedLong (0x1000 : Word).toNat ((245 : Byte).toNat + 10) = true :=
  ⟨by decide, by decide, next_of_gives (by decide +kernel), rfl, rfl, by decide +kernel, by decide +kernel, by decide +kernel⟩

/-- Vector V6.2, the last byte of the tag. -/
theorem witness_ChangedTagByteIsRejected :
    10 < (15 : Byte).toNat ∧
    exec (.verify 15 0x1000 0x3000) tagged = .next { tagged with rspq := tagged.rspq ++ [BitVec.ofNat 32 ((15 : Byte).toNat - 10)] } ∧
    (0x1000 : Word).toNat + ((15 : Byte).toNat - 10) ≤ 0x100E ∧ 0x100E < (0x1000 : Word).toNat + (15 : Byte).toNat ∧
    (0xD5 : Byte) ≠ tagged.mem.read 0x100E ∧ ¬((0x3000 : Word).toNat ≤ 0x100E ∧ 0x100E < (0x3000 : Word).toNat + 16) :=
  ⟨by decide, test_verify, by decide, by decide, by decide +kernel, by decide⟩

/-- The first and the last size that never fit, and the last and the first that fit. -/
theorem witness_UsableMessageSizesAreZeroTo245 :
    (246 ≤ (246 : Byte).toNat ∧ 246 ≤ (255 : Byte).toNat) ∧
    ((245 : Byte).toNat ≤ 245 ∧ readOk tagged (0x3000 : Word).toNat 16 = true ∧
      readOk tagged (0x1000 : Word).toNat (245 : Byte).toNat = true ∧
      writeOk tagged ((0x1000 : Word).toNat + (245 : Byte).toNat) 10 = true) ∧ (0 : Byte).toNat ≤ 245 := by decide +kernel

end Sys2Proof.Tests
end

section
/-! The encoding family (rules R81 to R88): the fields of a header, the row of table T-R86 it selects, which headers are illegal, and the
words a command takes. -/

namespace Sys2Proof

/-! ### The four fields of a header word (rule R81) -/

theorem fieldOp_eq_extractLsb' (h : Word) : fieldOp h = h.extractLsb' 0 8 := rfl

theorem fieldA_eq_extractLsb' (h : Word) : fieldA h = h.extractLsb' 8 8 := by
  simp only [fieldA, BitVec.extractLsb', Nat.shiftRight_eq_div_pow]

theorem fieldB_eq_extractLsb' (h : Word) : fieldB h = h.extractLsb' 16 8 := by
  simp only [fieldB, BitVec.extractLsb', Nat.shiftRight_eq_div_pow]

theorem fieldZ_eq_extractLsb' (h : Word) : fieldZ h = h.extractLsb' 24 8 := by
  simp only [fieldZ, BitVec.extractLsb', Nat.shiftRight_eq_div_pow]

theorem toNat_eq_sum_fields (h : Word) :
    h.toNat = (fieldOp h).toNat + (fieldA h).toNat * 2 ^ 8 + (fieldB h).toNat * 2 ^ 16 + (fieldZ h).toNat * 2 ^ 24 := by
  have hlt := h.isLt
  simp only [fieldOp, fieldA, fieldB, fieldZ, BitVec.toNat_ofNat]
  omega

theorem word_eq_iff_fields_eq (g h : Word) :
    g = h ↔ fieldOp g = fieldOp h ∧ fieldA g = fieldA h ∧ fieldB g = fieldB h ∧ fieldZ g = fieldZ h := by
  constructor
  · rintro rfl
    exact ⟨rfl, rfl, rfl, rfl⟩
  · rintro ⟨hop, ha, hb, hz⟩
    apply BitVec.eq_of_toNat_eq
    rw [toNat_eq_sum_fields g, toNat_eq_sum_fields h, hop, ha, hb, hz]

@[simp] theorem fieldOp_and (g h : Word) : fieldOp (g &&& h) = fieldOp g &&& fieldOp h := by
  simp only [fieldOp_eq_extractLsb', BitVec.extractLsb'_and]

@[simp] theorem fieldA_and (g h : Word) : fieldA (g &&& h) = fieldA g &&& fieldA h := by
  simp only [fieldA_eq_extractLsb', BitVec.extractLsb'_and]

@[simp] theorem fieldB_and (g h : Word) : fieldB (g &&& h) = fieldB g &&& fieldB h := by
  simp only [fieldB_eq_extractLsb', BitVec.extractLsb'_and]

@[simp] theorem fieldZ_and (g h : Word) : fieldZ (g &&& h) = fieldZ g &&& fieldZ h := by
  simp only [fieldZ_eq_extractLsb', BitVec.extractLsb'_and]

/-! ### The rows of table T-R86, column by column -/

theorem mem_allOpcodes (o : Opcode) : o ∈ allOpcodes := by cases o <;> decide

@[simp] theorem fieldOp_opcodeMask (o : Opcode) : fieldOp (opcodeMask o) = BitVec.allOnes 8 := by cases o <;> rfl

@[simp] theorem fieldZ_opcodeMask (o : Opcode) : fieldZ (opcodeMask o) = BitVec.allOnes 8 := by cases o <;> rfl

/-- The mask leaves out exactly the fields the row's format uses (rule R82). -/
@[simp] theorem fieldA_opcodeMask (o : Opcode) :
    fieldA (opcodeMask o) = if formatUsesA (opcodeFormat o) then 0 else BitVec.allOnes 8 := by cases o <;> rfl

@[simp] theorem fieldB_opcodeMask (o : Opcode) :
    fieldB (opcodeMask o) = if formatUsesB (opcodeFormat o) then 0 else BitVec.allOnes 8 := by cases o <;> rfl

theorem and_fieldMask_eq_zero_iff (x : Byte) (used : Bool) :
    x &&& (if used then 0 else BitVec.allOnes 8) = 0 ↔ (used = false → x = 0) := by
  cases used
  · simp only [Bool.false_eq_true, if_false, BitVec.and_allOnes, true_imp_iff]
  · simp

theorem opcodeMatch_eq_headerWord (o : Opcode) : opcodeMatch o = headerWord (opcodeByte o) 0 0 := by cases o <;> rfl

theorem exists_opcodeByte_iff (op : Byte) : (∃ o, op = opcodeByte o) ↔ 0 < op.toNat ∧ op.toNat < 8 := by
  constructor
  · rintro ⟨o, rfl⟩
    cases o <;> decide
  · rintro ⟨hpos, hlt⟩
    have hop : op = BitVec.ofNat 8 op.toNat := by simp
    interval_cases op.toNat
    · exact ⟨.sha1Init, hop⟩
    · exact ⟨.sha1Update, hop⟩
    · exact ⟨.sha1Final, hop⟩
    · exact ⟨.hmac, hop⟩
    · exact ⟨.hmacv, hop⟩
    · exact ⟨.auth, hop⟩
    · exact ⟨.verify, hop⟩

theorem formatUsesA_eq_false_iff (o : Opcode) : formatUsesA (opcodeFormat o) = false ↔ (opcodeByte o).toNat ≤ 3 := by
  cases o <;> decide

theorem formatUsesB_eq_false_iff (o : Opcode) :
    formatUsesB (opcodeFormat o) = false ↔ (opcodeByte o).toNat ≤ 4 ∨ (opcodeByte o).toNat = 7 := by
  cases o <;> decide

/-! ### Which header selects which row (rules R86, R87) -/

theorem selectCommand_ok_iff_fields (h : Word) (o : Opcode) :
    selectCommand h = .ok o ↔
      fieldZ h = 0 ∧ fieldOp h = opcodeByte o ∧ (formatUsesA (opcodeFormat o) = false → fieldA h = 0) ∧
        (formatUsesB (opcodeFormat o) = false → fieldB h = 0) := by
  refine ⟨selectCommand_ok, ?_⟩
  rintro ⟨hz, hop, ha, hb⟩
  rw [← header_eq_fields h hz, hop]
  exact selectCommand_headerWord o _ _ ha hb

theorem selectCommand_ok_iff_mask (h : Word) (o : Opcode) :
    selectCommand h = .ok o ↔ h &&& opcodeMask o = opcodeMatch o := by
  rw [selectCommand_ok_iff_fields, word_eq_iff_fields_eq, opcodeMatch_eq_headerWord]
  simp only [fieldOp_and, fieldA_and, fieldB_and, fieldZ_and, fieldOp_opcodeMask, fieldA_opcodeMask, fieldB_opcodeMask,
    fieldZ_opcodeMask, fieldOp_headerWord, fieldA_headerWord, fieldB_headerWord, fieldZ_headerWord, BitVec.and_allOnes,
    and_fieldMask_eq_zero_iff]
  tauto

theorem exists_selectCommand_error_iff (h : Word) :
    (∃ why, selectCommand h = .error why) ↔ ∀ o, selectCommand h ≠ .ok o := by
  cases selectCommand h <;> simp

theorem exists_selectCommand_ok_iff (h : Word) :
    (∃ o, selectCommand h = .ok o) ↔
      fieldZ h = 0 ∧ (0 < (fieldOp h).toNat ∧ (fieldOp h).toNat < 8) ∧ ((fieldOp h).toNat ≤ 3 → fieldA h = 0) ∧
        ((fieldOp h).toNat ≤ 4 ∨ (fieldOp h).toNat = 7 → fieldB h = 0) := by
  simp only [selectCommand_ok_iff_fields, ← exists_opcodeByte_iff, formatUsesA_eq_false_iff, formatUsesB_eq_false_iff]
  constructor
  · rintro ⟨o, hz, hop, ha, hb⟩
    rw [hop]
    exact ⟨hz, ⟨o, rfl⟩, ha, hb⟩
  · rintro ⟨hz, ⟨o, hop⟩, ha, hb⟩
    rw [hop] at ha hb
    exact ⟨o, hz, hop, ha, hb⟩

theorem illegal_iff_no_row_matches (h : Word) :
    (∃ why, selectCommand h = .error why) ↔ ∀ o ∈ allOpcodes, h &&& opcodeMask o ≠ opcodeMatch o := by
  simp only [exists_selectCommand_error_iff, ne_eq, selectCommand_ok_iff_mask, mem_allOpcodes, true_imp_iff]

/-- Rule R87's list of the illegal headers. -/
theorem illegal_iff_reserved (h : Word) :
    (∃ why, selectCommand h = .error why) ↔
      (fieldZ h ≠ 0 ∨ (fieldOp h).toNat = 0 ∨ 8 ≤ (fieldOp h).toNat ∨
        (((fieldOp h).toNat = 1 ∨ (fieldOp h).toNat = 2 ∨ (fieldOp h).toNat = 3) ∧ (fieldA h ≠ 0 ∨ fieldB h ≠ 0)) ∨
        (((fieldOp h).toNat = 4 ∨ (fieldOp h).toNat = 7) ∧ fieldB h ≠ 0)) := by
  rw [exists_selectCommand_error_iff, ← not_exists, exists_selectCommand_ok_iff]
  bv_omega

/-! ### The words behind a header (rules R83 to R85, R88) -/

/-- The rows of table T-R83: behind the header `h` with opcode `o`, the words `ws` hold the operands of the command `i`, then `rest`. -/
inductive ReadsOperands (h : Word) (rest : List Word) : Opcode → List Word → Instr → Prop where
  | sha1Init : ReadsOperands h rest .sha1Init rest .sha1Init
  | sha1Update (srcPtr srcLen : Word) :
    ReadsOperands h rest .sha1Update (srcPtr :: srcLen :: rest) (.sha1Update srcPtr srcLen)
  | sha1Final (dstPtr : Word) : ReadsOperands h rest .sha1Final (dstPtr :: rest) (.sha1Final dstPtr)
  | hmac (msgPtr msgLen keyPtr dstPtr : Word) :
    ReadsOperands h rest .hmac (msgPtr :: msgLen :: keyPtr :: dstPtr :: rest) (.hmac (fieldA h) msgPtr msgLen keyPtr dstPtr)
  | hmacv (keyPtr dstPtr : Word) (frags : List Fragment) (hcount : frags.length = (fieldB h).toNat) :
    ReadsOperands h rest .hmacv (keyPtr :: dstPtr :: (encodeFragments frags ++ rest)) (.hmacv (fieldA h) keyPtr dstPtr frags)
  | auth (bufPtr keyPtr : Word) :
    ReadsOperands h rest .auth (bufPtr :: keyPtr :: rest) (.auth (fieldA h) (fieldB h) bufPtr keyPtr)
  | verify (bufPtr keyPtr : Word) :
    ReadsOperands h rest .verify (bufPtr :: keyPtr :: rest) (.verify (fieldA h) bufPtr keyPtr)

theorem takeOperands_eq_some_iff {o : Opcode} {h : Word} {ws rest : List Word} {i : Instr} :
    takeOperands o h ws = some (i, rest) ↔ ReadsOperands h rest o ws i := by
  constructor
  · intro ht
    unfold takeOperands at ht
    split at ht
    -- the row of HMACV, whose fragments `takeFragments` reads
    case h_5 =>
      split at ht
      · rename_i hfrags
        obtain ⟨hcount, rfl⟩ := takeFragments_some hfrags
        cases ht
        exact .hmacv _ _ _ hcount
      · cases ht
    case h_8 => cases ht
    all_goals
      cases ht
      constructor
  · intro hr
    cases hr with
    | hmacv keyPtr dstPtr frags hcount => simp only [takeOperands, ← hcount, takeFragments_encodeFragments]
    | _ => rfl

theorem ReadsOperands.rest_eq_drop {o : Opcode} {h : Word} {ws rest : List Word} {i : Instr} (hr : ReadsOperands h rest o ws i) :
    rest = ws.drop (operandCount o (fieldB h)) := by
  cases hr with
  | hmacv keyPtr dstPtr frags hcount =>
    have hdrop : (encodeFragments frags ++ rest).drop (2 * frags.length) = rest := List.drop_left' (encodeFragments_length frags)
    rw [operandCount, ← hcount, Nat.add_comm]
    exact hdrop.symm
  | _ => rfl

theorem decode_cons_eq_command_iff {h : Word} {ws rest : List Word} {i : Instr} :
    decode (h :: ws) = .command i rest ↔ ∃ o, selectCommand h = .ok o ∧ ReadsOperands h rest o ws i := by
  simp only [← takeOperands_eq_some_iff]
  constructor
  · intro hd
    cases hs : selectCommand h with
    | error why => simp [decode, hs] at hd
    | ok o =>
      simp only [decode, hs] at hd
      split at hd
      · rename_i ht
        cases hd
        exact ⟨o, rfl, ht⟩
      · cases hd
  · rintro ⟨o, hs, ht⟩
    exact decode_of_select hs ht

theorem decode_of_select_error {h : Word} {why : Illegal} (ws : List Word) (hs : selectCommand h = .error why) :
    decode (h :: ws) = .illegal why ws := by
  simp only [decode, hs]

theorem decode_cons_eq_illegal_iff {h : Word} {ws rest : List Word} {why : Illegal} :
    decode (h :: ws) = .illegal why rest ↔ selectCommand h = .error why ∧ rest = ws := by
  constructor
  · intro hd
    cases hs : selectCommand h with
    | error why' =>
      rw [decode_of_select_error ws hs] at hd
      cases hd
      exact ⟨rfl, rfl⟩
    | ok o =>
      simp only [decode, hs] at hd
      split at hd <;> cases hd
  · rintro ⟨hs, rfl⟩
    exact decode_of_select_error _ hs

theorem commandLength_of_ok {h : Word} {o : Opcode} (hs : selectCommand h = .ok o) :
    commandLength h = operandCount o (fieldB h) + 1 := by
  simp only [commandLength, hs, Nat.add_comm]

theorem commandLength_of_error {h : Word} {why : Illegal} (hs : selectCommand h = .error why) : commandLength h = 1 := by
  simp only [commandLength, hs]

/-- Once as many words are there as the header announces, they are a command (rules R84, R90). -/
theorem decode_of_commandLength_le {h : Word} {o : Opcode} {ws : List Word} (hs : selectCommand h = .ok o)
    (hlen : commandLength h ≤ (h :: ws).length) : ∃ i rest, decode (h :: ws) = .command i rest := by
  rw [commandLength_of_ok hs, List.length_cons] at hlen
  cases ht : takeOperands o h ws with
  | none =>
    have hshort := takeOperands_none.mp ht
    omega
  | some r => exact ⟨r.1, r.2, decode_of_select hs ht⟩

theorem rest_of_decode_command {h : Word} {ws rest : List Word} {i : Instr} (hd : decode (h :: ws) = .command i rest) :
    rest = (h :: ws).drop (commandLength h) := by
  obtain ⟨o, hs, hr⟩ := decode_cons_eq_command_iff.mp hd
  rw [commandLength_of_ok hs, List.drop_succ_cons]
  exact hr.rest_eq_drop

theorem rest_of_decode_illegal {h : Word} {ws rest : List Word} {why : Illegal} (hd : decode (h :: ws) = .illegal why rest) :
    rest = (h :: ws).drop (commandLength h) := by
  obtain ⟨hs, rfl⟩ := decode_cons_eq_illegal_iff.mp hd
  rw [commandLength_of_error hs]
  rfl

end Sys2Proof

namespace Sys2Proof.Machine

/-! ### A step on what the decoder finds (rules R87, R88) -/

theorem step_of_decode_command {s : State} {i : Instr} {rest : List Word} (hd : decode s.cmdq = .command i rest) :
    step s = exec i (s.setCmdq rest) := by
  simp only [step, State.fetch, hd]

theorem step_of_decode_illegal {s : State} {why : Illegal} {rest : List Word} (hd : decode s.cmdq = .illegal why rest) :
    step s = .next (s.setCmdq rest).raiseIllegal := by
  simp only [step, State.fetch, hd]

theorem raise_setCmdq (s : State) (rest : List Word) (f : Status) :
    (s.setCmdq rest).raise f = { s with cmdq := rest, rspq := s.rspq ++ [responseWord f 0] } := rfl

theorem hmacCommand_of_long_key {klen : Byte} (keyPtr dstPtr : Word) (frags : List Fragment) (s : State) (hk : 64 < klen.toNat) :
    hmacCommand klen keyPtr dstPtr frags s = .next (s.raise .keyTooLong) := if_pos hk

theorem step_of_illegal_header {s : State} {h : Word} {rest : List Word} {why : Illegal} (hq : s.cmdq = h :: rest)
    (hs : selectCommand h = .error why) : step s = .next { s with cmdq := rest, rspq := s.rspq ++ [0x300] } := by
  have hd : decode s.cmdq = .illegal why rest := by rw [hq, decode_of_select_error rest hs]
  rw [step_of_decode_illegal hd, State.raiseIllegal, raise_setCmdq]
  rfl

/-- Where a command's meaning is the shared one of HMAC and HMACV, a key length above 64 answers `KEY_TOO_LONG` (rules R87, R165). -/
theorem step_of_long_key {s : State} {i : Instr} {rest : List Word} {klen : Byte} {keyPtr dstPtr : Word} {frags : List Fragment}
    (hd : decode s.cmdq = .command i rest) (hexec : ∀ t, exec i t = hmacCommand klen keyPtr dstPtr frags t) (hk : 64 < klen.toNat) :
    step s = .next { s with cmdq := rest, rspq := s.rspq ++ [0x500] } := by
  rw [step_of_decode_command hd, hexec, hmacCommand_of_long_key keyPtr dstPtr frags _ hk, raise_setCmdq]
  rfl

/-- Settles O12, from the decoder's answer to an illegal header. -/
theorem illegalHeaderConsumesOneWord : Obligations.IllegalHeaderConsumesOneWord :=
  fun _ _ _ _ hq hs => step_of_illegal_header hq hs

/-- Settles O3, field by field. -/
theorem headerLayout : Obligations.HeaderLayout := by
  intro h
  refine ⟨toNat_eq_sum_fields h, fieldOp_eq_extractLsb' h, fieldA_eq_extractLsb' h, fieldB_eq_extractLsb' h,
    fieldZ_eq_extractLsb' h, fun hz => (illegal_iff_reserved h).mpr (.inl hz), fun o hs => ?_⟩
  obtain ⟨-, hop, -, -⟩ := selectCommand_ok hs
  exact hop

/-- Settles O4: each row by its mask, and the command that is decoded by the row's operands. -/
theorem headerSelectsRowByMask : Obligations.HeaderSelectsRowByMask := by
  intro h
  refine ⟨selectCommand_ok_iff_mask h .sha1Init, selectCommand_ok_iff_mask h .sha1Update, selectCommand_ok_iff_mask h .sha1Final,
    selectCommand_ok_iff_mask h .hmac, selectCommand_ok_iff_mask h .hmacv, selectCommand_ok_iff_mask h .auth,
    selectCommand_ok_iff_mask h .verify, fun hop => ?_, fun i ws rest hd => ?_⟩
  · exact (illegal_iff_reserved h).mpr (.inr (hop.imp_right .inl))
  · obtain ⟨o, hs, hr⟩ := decode_cons_eq_command_iff.mp hd
    obtain ⟨-, hop, -, -⟩ := selectCommand_ok hs
    have hrest := hr.rest_eq_drop
    rw [← fieldA_eq_extractLsb', ← fieldB_eq_extractLsb']
    cases hr with
    | sha1Init => exact ⟨hop, rfl⟩
    | sha1Update | sha1Final => exact ⟨hop, hrest⟩
    | hmac | verify => exact ⟨hop, rfl, hrest⟩
    | hmacv _ _ _ hcount => exact ⟨hop, rfl, hcount, hcount ▸ hrest⟩
    | auth => exact ⟨hop, rfl, rfl, hrest⟩

/-- Settles O6: the length by the opcode's operand count, and the words left by the row's operands. -/
theorem commandLengths : Obligations.CommandLengths := by
  refine ⟨fun h => ⟨commandLength_of_ok, commandLength_of_ok, commandLength_of_ok, commandLength_of_ok, fun hs => ?_,
    commandLength_of_ok, commandLength_of_ok, fun ⟨_, hs⟩ => commandLength_of_error hs⟩,
    fun _ _ _ _ hd => rest_of_decode_command hd, fun _ _ _ _ hd => rest_of_decode_illegal hd⟩
  have hcount := (fieldB h).isLt
  rw [commandLength_of_ok hs, operandCount]
  omega

/-- Settles O5, from the two characterisations of the illegal headers and what a step does with each decoded command. -/
theorem illegalHeaderIffReserved : Obligations.IllegalHeaderIffReserved := by
  intro h
  refine ⟨illegal_iff_reserved h, illegal_iff_no_row_matches h, fun s rest hq ⟨why, hs⟩ => step_of_illegal_header hq hs,
    fun o ws hs hlen => decode_of_commandLength_le hs hlen, ?hmac, ?hmacv⟩
  case hmac =>
    intro s ws rest klen msgPtr msgLen keyPtr dstPtr hk hd hq
    exact step_of_long_key (hq ▸ hd) (fun _ => rfl) hk
  case hmacv =>
    intro s ws rest klen keyPtr dstPtr frags hk hd hq
    exact step_of_long_key (hq ▸ hd) (fun _ => rfl) hk

end Sys2Proof.Machine
end

section
/-! The message schedule and the fresh context (rules R121, R124, R125): a schedule is extended latest word first, so the word of round `t`
is element `79 - t` of the extended list. -/

namespace Sys2Proof.Machine

theorem getD_drop (l : List Word) (n i : Nat) : (l.drop n).getD i 0 = l.getD (n + i) 0 := by
  simp only [List.getD_eq_getElem?_getD, List.getElem?_drop]

theorem extendSchedule_drop (n : Nat) (latest : List Word) : (extendSchedule n latest).drop n = latest := by
  induction n generalizing latest with
  | zero => rfl
  | succ n ih => rw [extendSchedule, ← List.drop_drop, ih, List.drop_one, List.tail_cons]

theorem extendSchedule_getD_add (n : Nat) (latest : List Word) (i : Nat) :
    (extendSchedule n latest).getD (n + i) 0 = latest.getD i 0 := by
  rw [← getD_drop, extendSchedule_drop]

/-- Each added word is the next word after those added before it, which stand behind it in the list (rule R125). -/
theorem extendSchedule_getD (n : Nat) (latest : List Word) {i : Nat} (hi : i < n) :
    (extendSchedule n latest).getD i 0 = nextWord ((extendSchedule n latest).drop (i + 1)) := by
  induction n generalizing latest with
  | zero => exact absurd hi (Nat.not_lt_zero i)
  | succ n ih =>
    rw [extendSchedule]
    obtain hlt | rfl := Nat.lt_succ_iff_lt_or_eq.mp hi
    · exact ih (nextWord latest :: latest) hlt
    · rw [← List.drop_drop, extendSchedule_drop]
      exact extendSchedule_getD_add i (nextWord latest :: latest) 0

@[simp] theorem schedule_length (b : Block) : (schedule b).length = 80 := by simp [schedule]

theorem schedule_getD (b : Block) {t : Nat} (ht : t < 80) :
    (schedule b).getD t 0 = (extendSchedule 64 (loadWords b).reverse).getD (79 - t) 0 := by
  have hlen : (extendSchedule 64 (loadWords b).reverse).length = 80 := by simp
  rw [schedule, List.getD_reverse t (by omega), hlen]

theorem loadWords_getD (b : Block) {t : Nat} (ht : t < 16) : (loadWords b).getD t 0 =
    be32 (blockByte b (4 * t)) (blockByte b (4 * t + 1)) (blockByte b (4 * t + 2)) (blockByte b (4 * t + 3)) := by
  simp [loadWords, ht]

/-- Words 0 to 15 of the schedule are the words of the block (rule R124). -/
theorem schedule_getD_of_lt (b : Block) {t : Nat} (ht : t < 16) : (schedule b).getD t 0 = (loadWords b).getD t 0 := by
  calc (schedule b).getD t 0
      = (extendSchedule 64 (loadWords b).reverse).getD (64 + (15 - t)) 0 := by rw [schedule_getD b (by omega)]; congr 1; omega
    _ = (loadWords b).reverse.getD (15 - t) 0 := extendSchedule_getD_add 64 _ _
    _ = (loadWords b).getD t 0 := by
      rw [List.getD_reverse _ (by rw [loadWords_length]; omega), loadWords_length]; congr 1; omega

/-- Words 16 to 79 of the schedule by the recurrence (rule R125). -/
theorem schedule_getD_of_ge (b : Block) {t : Nat} (h16 : 16 ≤ t) (h80 : t < 80) : (schedule b).getD t 0 =
    rotl 1 ((schedule b).getD (t - 3) 0 ^^^ (schedule b).getD (t - 8) 0 ^^^ (schedule b).getD (t - 14) 0 ^^^
      (schedule b).getD (t - 16) 0) := by
  have hback : ∀ k, k < 16 → ((extendSchedule 64 (loadWords b).reverse).drop (79 - t + 1)).getD k 0 =
      (schedule b).getD (t - (k + 1)) 0 := by
    intro k hk
    rw [getD_drop, schedule_getD b (by omega)]
    congr 1; omega
  rw [schedule_getD b h80, extendSchedule_getD 64 _ (by omega), nextWord, hback 2 (by decide), hback 7 (by decide),
    hback 13 (by decide), hback 15 (by decide)]

theorem getD_four_blockBytes (b : Block) (i : Nat) {j : Nat} (hj : j < 4) :
    [blockByte b i, blockByte b (i + 1), blockByte b (i + 2), blockByte b (i + 3)].getD j 0 = blockByte b (i + j) := by
  obtain rfl | rfl | rfl | rfl : j = 0 ∨ j = 1 ∨ j = 2 ∨ j = 3 := by omega
  all_goals rfl

@[simp] theorem blockByte_ctxInit (i : Nat) : blockByte ctxInit.blk i = 0 := by
  simp only [blockByte, ctxInit, Vector.toList_replicate, List.getD_eq_getElem?_getD, List.getElem?_replicate]
  split <;> rfl

/-- Settles O30: the words of the block, their bytes, and the recurrence of the extension. -/
theorem scheduleOfABlock : Obligations.ScheduleOfABlock := by
  intro b
  have hload : ∀ {t}, t < 16 → (schedule b).getD t 0 = be32 (blockByte b (4 * t)) (blockByte b (4 * t + 1))
      (blockByte b (4 * t + 2)) (blockByte b (4 * t + 3)) := fun ht => by rw [schedule_getD_of_lt b ht, loadWords_getD b ht]
  refine ⟨schedule_length b, fun _ => hload, fun t j ht hj => ?_, fun _ => schedule_getD_of_ge b⟩
  rw [hload ht, be32_extract _ _ _ _ hj, getD_four_blockBytes b (4 * t) hj]

/-- Settles O29: every field but the block by computation, the block byte by byte. -/
theorem freshContext : Obligations.FreshContext :=
  ⟨rfl, rfl, rfl, rfl, rfl, rfl, rfl, rfl, blockByte_ctxInit⟩

end Sys2Proof.Machine
end

section
/-! PROOFS. HmacEngine: the two pads of a key, byte by byte (rules R160, R161). -/

namespace Sys2Proof.Machine

/-- Within the block, `K0` reads as the key, with zero bytes beyond it (rule R160). -/
theorem keyBlock_getElem? {k : List Byte} {i : Nat} (hi : i < 64) : (keyBlock k)[i]? = some (k.getD i 0) := by
  obtain hk | hk := Nat.lt_or_ge i k.length
  · rw [keyBlock, List.getElem?_append_left hk, List.getElem?_eq_getElem hk, List.getD_eq_getElem k 0 hk]
  · have hfill : i - k.length < Config.blockBytes - k.length := Nat.sub_lt_sub_right hk hi
    rw [keyBlock, List.getElem?_append_right hk, List.getElem?_replicate_of_lt hfill, List.getD_eq_default k 0 hk]

theorem innerPad_length {k : List Byte} (h : k.length ≤ 64) : (innerPad k).length = 64 := by
  rw [innerPad, List.length_map, keyBlock_length h]

theorem outerPad_length {k : List Byte} (h : k.length ≤ 64) : (outerPad k).length = 64 := by
  rw [outerPad, List.length_map, keyBlock_length h]

/-- Every byte of a pad is the byte of `K0` exclusive or the pad's constant (rule R161). -/
theorem map_xor_keyBlock_getD (k : List Byte) (c : Byte) {i : Nat} (hi : i < 64) :
    ((keyBlock k).map (fun b => b ^^^ c)).getD i 0 = k.getD i 0 ^^^ c := by
  rw [List.getD_eq_getElem?_getD, List.getElem?_map, keyBlock_getElem? hi, Option.map_some, Option.getD_some]

theorem innerPad_getD (k : List Byte) {i : Nat} (hi : i < 64) : (innerPad k).getD i 0 = k.getD i 0 ^^^ 0x36 :=
  map_xor_keyBlock_getD k 0x36 hi

theorem outerPad_getD (k : List Byte) {i : Nat} (hi : i < 64) : (outerPad k).getD i 0 = k.getD i 0 ^^^ 0x5C :=
  map_xor_keyBlock_getD k 0x5C hi

/-- Settles O41: each pad by the key's bytes within it, and beyond the key, where `K0` is zero, by the constant alone. -/
theorem padsOfAKey : Obligations.PadsOfAKey := by
  intro k hk
  refine ⟨innerPad_length hk, outerPad_length hk, fun i hi => ?_, fun i hki hi => ?_⟩
  · have hi64 : i < 64 := Nat.lt_of_lt_of_le hi hk
    exact ⟨innerPad_getD k hi64, outerPad_getD k hi64⟩
  · have hzero : k.getD i 0 = 0 := List.getD_eq_default k 0 hki
    exact ⟨by rw [innerPad_getD k hi, hzero]; rfl, by rw [outerPad_getD k hi, hzero]; rfl⟩

end Sys2Proof.Machine
end

section
/-! The failure family (rules R200 to R210): when each command fails and with which status, and what a failure leaves unchanged. -/

namespace Sys2Proof.Machine

/-! ### Response words (rules R89, R200) -/

theorem statusCode_le (st : Status) : statusCode st ≤ 7 := by cases st <;> decide

theorem ofNat_statusCode (st : Status) : Status.ofNat (statusCode st) = st := by cases st <;> rfl

theorem statusCode_injective : Function.Injective statusCode := Function.LeftInverse.injective ofNat_statusCode

theorem responseWord_toNat (st : Status) (v : Byte) : (responseWord st v).toNat = statusCode st * 2 ^ 8 + v.toNat := by
  have hcode := statusCode_le st
  have hv := v.isLt
  rw [responseWord, BitVec.toNat_ofNat, Nat.mod_eq_of_lt (by omega)]

@[simp] theorem responseStatus_responseWord (st : Status) (v : Byte) : responseStatus (responseWord st v) = statusCode st := by
  have hcode := statusCode_le st
  have hv := v.isLt
  rw [responseStatus, responseWord_toNat]
  omega

@[simp] theorem responseValue_responseWord (st : Status) (v : Byte) : responseValue (responseWord st v) = v.toNat := by
  have hv := v.isLt
  rw [responseValue, responseWord_toNat]
  omega

theorem status_eq_of_append_response_eq {q : List Word} {st st' : Status} {v v' : Byte}
    (h : q ++ [responseWord st v] = q ++ [responseWord st' v']) : st = st' := by
  have hword : responseWord st v = responseWord st' v' := List.singleton_inj.mp (List.append_cancel_left h)
  exact statusCode_injective (by rw [← responseStatus_responseWord st v, hword, responseStatus_responseWord])

/-! ### The tag comparison (rule R186) -/

theorem tagDifference_eq_zero_iff {t r : List Byte} (hlen : t.length = r.length) : tagDifference t r = 0 ↔ t = r := by
  rw [tagDifference, tagDifference_fold, and_iff_right rfl]
  induction t generalizing r with
  | nil => simp [List.length_eq_zero_iff.mp hlen.symm]
  | cons x t ih =>
    cases r with
    | nil => cases hlen
    | cons y r =>
      rw [List.zipWith_cons_cons, List.forall_mem_cons, ih (Nat.succ.inj hlen), List.cons.injEq]
      exact and_congr_left' BitVec.xor_eq_zero_iff

theorem tagDifference_tag_ne_zero_iff (m : Memory) (k msg : List Byte) (p : Nat) :
    tagDifference (tag k msg) (m.readBytes p 10) ≠ 0 ↔ tag k msg ≠ m.readBytes p 10 :=
  not_congr (tagDifference_eq_zero_iff (by simp))

/-! ### When a command fails (rules R202, R203, R205 to R208, in the order of rule R210) -/

/-- In the state `s` a command meets the condition of a failure and none that rule R210 puts before it. -/
inductive Fails (s : State) : Instr → Status → Prop where
  | updateIdle {srcPtr srcLen : Word} (hphase : s.phase = .idle) : Fails s (.sha1Update srcPtr srcLen) .sequenceError
  | updateFault {srcPtr srcLen : Word} (hphase : s.phase = .active) (hsrc : readOk s srcPtr.toNat srcLen.toNat = false) :
    Fails s (.sha1Update srcPtr srcLen) .memFault
  | updateOverflow {srcPtr srcLen : Word} (hphase : s.phase = .active) (hsrc : readOk s srcPtr.toNat srcLen.toNat = true)
    (hlen : 2 ^ 64 ≤ bitLength s.hs + 8 * srcLen.toNat) : Fails s (.sha1Update srcPtr srcLen) .lengthOverflow
  | finalIdle {dstPtr : Word} (hphase : s.phase = .idle) : Fails s (.sha1Final dstPtr) .sequenceError
  | finalFault {dstPtr : Word} (hphase : s.phase = .active) (hdst : writeOk s dstPtr.toNat 20 = false) :
    Fails s (.sha1Final dstPtr) .memFault
  | hmacKey {klen : Byte} {msgPtr msgLen keyPtr dstPtr : Word} (hkey : 64 < klen.toNat) :
    Fails s (.hmac klen msgPtr msgLen keyPtr dstPtr) .keyTooLong
  | hmacFault {klen : Byte} {msgPtr msgLen keyPtr dstPtr : Word} (hkey : klen.toNat ≤ 64)
    (hmem : readOk s keyPtr.toNat klen.toNat = false ∨ fragmentsOk s [{ ptr := msgPtr, len := msgLen }] = false ∨
      writeOk s dstPtr.toNat 20 = false) : Fails s (.hmac klen msgPtr msgLen keyPtr dstPtr) .memFault
  | hmacvKey {klen : Byte} {keyPtr dstPtr : Word} {frags : List Fragment} (hkey : 64 < klen.toNat) :
    Fails s (.hmacv klen keyPtr dstPtr frags) .keyTooLong
  | hmacvFault {klen : Byte} {keyPtr dstPtr : Word} {frags : List Fragment} (hkey : klen.toNat ≤ 64)
    (hmem : readOk s keyPtr.toNat klen.toNat = false ∨ fragmentsOk s frags = false ∨ writeOk s dstPtr.toNat 20 = false) :
    Fails s (.hmacv klen keyPtr dstPtr frags) .memFault
  | authCapacity {size cap : Byte} {bufPtr keyPtr : Word} (hcap : cap.toNat < size.toNat + 10) :
    Fails s (.auth size cap bufPtr keyPtr) .capacityExceeded
  | authFault {size cap : Byte} {bufPtr keyPtr : Word} (hcap : size.toNat + 10 ≤ cap.toNat)
    (hmem : readOk s keyPtr.toNat 16 = false ∨ readOk s bufPtr.toNat size.toNat = false ∨
      writeOk s (bufPtr.toNat + size.toNat) 10 = false) : Fails s (.auth size cap bufPtr keyPtr) .memFault
  | verifySize {size : Byte} {bufPtr keyPtr : Word} (hsize : size.toNat ≤ 10) :
    Fails s (.verify size bufPtr keyPtr) .verificationFailed
  | verifyFault {size : Byte} {bufPtr keyPtr : Word} (hsize : 10 < size.toNat)
    (hmem : readOk s keyPtr.toNat 16 = false ∨ readOk s bufPtr.toNat size.toNat = false) :
    Fails s (.verify size bufPtr keyPtr) .memFault
  | verifyTag {size : Byte} {bufPtr keyPtr : Word} (hsize : 10 < size.toNat) (hkey : readOk s keyPtr.toNat 16 = true)
    (hbuf : readOk s bufPtr.toNat size.toNat = true)
    (htag : tag (s.mem.readBytes keyPtr.toNat 16) (s.mem.readBytes bufPtr.toNat (size.toNat - 10)) ≠
      s.mem.readBytes (bufPtr.toNat + (size.toNat - 10)) 10) : Fails s (.verify size bufPtr keyPtr) .verificationFailed

theorem hmacCommand_of_fault {klen : Byte} {keyPtr dstPtr : Word} {frags : List Fragment} {s : State} (hkey : klen.toNat ≤ 64)
    (hmem : readOk s keyPtr.toNat klen.toNat = false ∨ fragmentsOk s frags = false ∨ writeOk s dstPtr.toNat 20 = false) :
    hmacCommand klen keyPtr dstPtr frags s = .next (s.raise .memFault) := by
  rw [hmacCommand, if_neg (not_lt.mpr hkey)]
  obtain h | h | h := hmem <;> simp [h]

theorem execAuth_of_fault {size cap : Byte} {bufPtr keyPtr : Word} {s : State} (hcap : size.toNat + 10 ≤ cap.toNat)
    (hmem : readOk s keyPtr.toNat 16 = false ∨ readOk s bufPtr.toNat size.toNat = false ∨
      writeOk s (bufPtr.toNat + size.toNat) 10 = false) : execAuth size cap bufPtr keyPtr s = .next (s.raise .memFault) := by
  rw [execAuth, if_neg (not_lt.mpr hcap)]
  obtain h | h | h := hmem <;> simp [h]

theorem execVerify_of_fault {size : Byte} {bufPtr keyPtr : Word} {s : State} (hsize : 10 < size.toNat)
    (hmem : readOk s keyPtr.toNat 16 = false ∨ readOk s bufPtr.toNat size.toNat = false) :
    execVerify size bufPtr keyPtr s = .next (s.raise .memFault) := by
  rw [execVerify, if_neg (not_le.mpr hsize)]
  obtain h | h := hmem <;> simp [h]

theorem exec_of_fails {s : State} {i : Instr} {f : Status} (h : Fails s i f) : exec i s = .next (s.raise f) := by
  cases h with
  | updateIdle hphase | finalIdle hphase => exact if_pos (by simp [State.isActive, hphase])
  | updateFault hphase hsrc => simp [exec, execSha1Update, (isActive_iff s).mpr hphase, hsrc]
  | updateOverflow hphase hsrc hlen =>
    rw [exec, execSha1Update, if_neg (by simp [(isActive_iff s).mpr hphase]), if_neg (by simp [hsrc]), if_pos hlen]
  | finalFault hphase hdst => simp [exec, execSha1Final, (isActive_iff s).mpr hphase, hdst]
  | hmacKey hkey | hmacvKey hkey => exact hmacCommand_of_long_key _ _ _ s hkey
  | hmacFault hkey hmem | hmacvFault hkey hmem => exact hmacCommand_of_fault hkey hmem
  | authCapacity hcap => exact if_pos hcap
  | authFault hcap hmem => exact execAuth_of_fault hcap hmem
  | verifySize hsize => exact if_pos hsize
  | verifyFault hsize hmem => exact execVerify_of_fault hsize hmem
  | verifyTag hsize hkey hbuf htag =>
    rw [exec, execVerify, if_neg (not_le.mpr hsize), if_neg (by simp [hkey]), if_neg (by simp [hbuf]),
      if_pos ((tagDifference_tag_ne_zero_iff _ _ _ _).mpr htag)]

/-- Every command that answers either fails as `Fails` says, or answers `OK`. -/
theorem fails_or_ok_of_exec {s t : State} {i : Instr} (h : exec i s = .next t) :
    (∃ f, Fails s i f ∧ t = s.raise f) ∨ ∃ v, t.rspq = s.rspq ++ [responseWord .ok v] := by
  cases i with
  | sha1Init => cases h; exact .inr ⟨0, rfl⟩
  | sha1Update srcPtr srcLen =>
    obtain ⟨hphase, ht⟩ | ⟨hphase, hsrc, ht⟩ | ⟨hphase, hsrc, hlen, ht⟩ | ⟨-, -, -, rfl⟩ := execSha1Update_cases h
    · exact .inl ⟨_, .updateIdle hphase, ht⟩
    · exact .inl ⟨_, .updateFault hphase hsrc, ht⟩
    · exact .inl ⟨_, .updateOverflow hphase hsrc hlen, ht⟩
    · exact .inr ⟨0, rfl⟩
  | sha1Final dstPtr =>
    obtain ⟨hphase, ht⟩ | ⟨hphase, hdst, ht⟩ | ⟨-, -, rfl⟩ := execSha1Final_cases h
    · exact .inl ⟨_, .finalIdle hphase, ht⟩
    · exact .inl ⟨_, .finalFault hphase hdst, ht⟩
    · exact .inr ⟨0, rfl⟩
  | hmac klen msgPtr msgLen keyPtr dstPtr =>
    obtain ⟨hkey, ht⟩ | ⟨hkey, hmem, ht⟩ | ⟨-, -, -, -, rfl⟩ := hmacCommand_cases h
    · exact .inl ⟨_, .hmacKey hkey, ht⟩
    · exact .inl ⟨_, .hmacFault hkey hmem, ht⟩
    · exact .inr ⟨0, rfl⟩
  | hmacv klen keyPtr dstPtr frags =>
    obtain ⟨hkey, ht⟩ | ⟨hkey, hmem, ht⟩ | ⟨-, -, -, -, rfl⟩ := hmacCommand_cases h
    · exact .inl ⟨_, .hmacvKey hkey, ht⟩
    · exact .inl ⟨_, .hmacvFault hkey hmem, ht⟩
    · exact .inr ⟨0, rfl⟩
  | auth size cap bufPtr keyPtr =>
    obtain ⟨hcap, ht⟩ | ⟨hcap, hmem, ht⟩ | ⟨-, -, -, -, rfl⟩ := execAuth_cases h
    · exact .inl ⟨_, .authCapacity hcap, ht⟩
    · exact .inl ⟨_, .authFault hcap hmem, ht⟩
    · exact .inr ⟨_, rfl⟩
  | verify size bufPtr keyPtr =>
    obtain ⟨hsize, ht⟩ | ⟨hsize, hmem, ht⟩ | ⟨hsize, hkey, hbuf, hdiff, ht⟩ | ⟨-, -, -, -, rfl⟩ := execVerify_cases h
    · exact .inl ⟨_, .verifySize hsize, ht⟩
    · exact .inl ⟨_, .verifyFault hsize hmem, ht⟩
    · exact .inl ⟨_, .verifyTag hsize hkey hbuf ((tagDifference_tag_ne_zero_iff _ _ _ _).mp hdiff), ht⟩
    · exact .inr ⟨_, rfl⟩

theorem exec_raises_iff_fails {s : State} {i : Instr} {f : Status} (hf : f ≠ .ok) :
    exec i s = .next (s.raise f) ↔ Fails s i f := by
  refine ⟨fun h => ?_, exec_of_fails⟩
  obtain ⟨f', hfails, ht⟩ | ⟨v, hok⟩ := fails_or_ok_of_exec h
  · rwa [status_eq_of_append_response_eq (congrArg State.rspq ht)]
  · exact absurd (status_eq_of_append_response_eq hok) hf

/-- Settles O21: of a command's answers only a failure's has a non-zero status, and an illegal header is answered by the decoder. -/
theorem failureChangesNothing : Obligations.FailureChangesNothing := by
  refine ⟨fun s t i rest w hd hstep hrspq hstatus => ?_, fun s why rest hd => step_of_decode_illegal hd⟩
  rw [step_of_decode_command hd] at hstep
  obtain ⟨f, -, rfl⟩ | ⟨v, hok⟩ := fails_or_ok_of_exec hstep
  · obtain rfl : responseWord f 0 = w := List.singleton_inj.mp (List.append_cancel_left hrspq)
    exact ⟨raise_setCmdq s rest f, responseValue_responseWord f 0⟩
  · rw [hrspq] at hok
    obtain rfl : w = responseWord .ok v := List.singleton_inj.mp (List.append_cancel_left hok)
    exact absurd (responseStatus_responseWord .ok v) hstatus

/-- Settles O53: the one failure with this status. -/
theorem capacityExceededExactlyWhen : Obligations.CapacityExceededExactlyWhen := by
  intro i s
  refine (exec_raises_iff_fails (f := .capacityExceeded) (by decide)).trans ⟨fun h => ?_, ?_⟩
  · cases h with
    | authCapacity hcap => exact ⟨_, _, _, _, rfl, hcap⟩
  · rintro ⟨size, cap, bufPtr, keyPtr, rfl, hcap⟩
    exact .authCapacity hcap

/-- Settles O54: the two failures with this status, before and after the admission of the ranges. -/
theorem verificationFailedExactlyWhen : Obligations.VerificationFailedExactlyWhen := by
  intro i s
  refine (exec_raises_iff_fails (f := .verificationFailed) (by decide)).trans ⟨fun h => ?_, ?_⟩
  · cases h with
    | verifySize hsize => exact ⟨_, _, _, rfl, .inl hsize⟩
    | verifyTag hsize hkey hbuf htag => exact ⟨_, _, _, rfl, .inr ⟨hsize, hkey, hbuf, htag⟩⟩
  · rintro ⟨size, bufPtr, keyPtr, rfl, hsize | ⟨hsize, hkey, hbuf, htag⟩⟩
    · exact .verifySize hsize
    · exact .verifyTag hsize hkey hbuf htag

/-- Settles O55: the failures of SHA1_UPDATE and SHA1_FINAL with this status. -/
theorem sequenceErrorExactlyWhen : Obligations.SequenceErrorExactlyWhen := by
  intro i s
  refine (exec_raises_iff_fails (f := .sequenceError) (by decide)).trans ⟨fun h => ?_, ?_⟩
  · cases h with
    | updateIdle hphase => exact ⟨hphase, .inl ⟨_, _, rfl⟩⟩
    | finalIdle hphase => exact ⟨hphase, .inr ⟨_, rfl⟩⟩
  · rintro ⟨hphase, ⟨srcPtr, srcLen, rfl⟩ | ⟨dstPtr, rfl⟩⟩
    · exact .updateIdle hphase
    · exact .finalIdle hphase

/-- Settles O56: the failures of HMAC and HMACV with this status. -/
theorem keyTooLongExactlyWhen : Obligations.KeyTooLongExactlyWhen := by
  intro i s
  refine (exec_raises_iff_fails (f := .keyTooLong) (by decide)).trans ⟨fun h => ?_, ?_⟩
  · cases h with
    | hmacKey hkey => exact .inl ⟨_, _, _, _, _, rfl, hkey⟩
    | hmacvKey hkey => exact .inr ⟨_, _, _, _, rfl, hkey⟩
  · rintro (⟨klen, msgPtr, msgLen, keyPtr, dstPtr, rfl, hkey⟩ | ⟨klen, keyPtr, dstPtr, frags, rfl, hkey⟩)
    · exact .hmacKey hkey
    · exact .hmacvKey hkey

end Sys2Proof.Machine
end

section
/-! PROOFS. The encoder and the decoder undo each other (rules R81 to R87), and the layout of a response word (rules R89, R95, R200). -/

namespace Sys2Proof

theorem decode_encode {i : Instr} (hi : i.WellFormed = true) (rest : List Word) : decode (encode i ++ rest) = .command i rest := by
  cases i with
  | sha1Init => exact decode_of_select (selectCommand_headerWord .sha1Init 0 0 (fun _ => rfl) (fun _ => rfl)) rfl
  | sha1Update => exact decode_of_select (selectCommand_headerWord .sha1Update 0 0 (fun _ => rfl) (fun _ => rfl)) rfl
  | sha1Final => exact decode_of_select (selectCommand_headerWord .sha1Final 0 0 (fun _ => rfl) (fun _ => rfl)) rfl
  | hmac klen => exact decode_of_select (selectCommand_headerWord .hmac klen 0 nofun (fun _ => rfl)) (by simp [takeOperands])
  | hmacv klen keyPtr dstPtr frags =>
    have hlen : frags.length ≤ 255 := by simpa [Instr.WellFormed] using hi
    have hcount : (BitVec.ofNat 8 frags.length).toNat = frags.length := by rw [BitVec.toNat_ofNat]; omega
    refine decode_of_select (selectCommand_headerWord .hmacv klen (BitVec.ofNat 8 frags.length) nofun nofun) ?_
    show takeOperands .hmacv _ (keyPtr :: dstPtr :: (encodeFragments frags ++ rest)) = _
    simp only [takeOperands, fieldA_headerWord, fieldB_headerWord, hcount, takeFragments_encodeFragments]
  | auth size cap => exact decode_of_select (selectCommand_headerWord .auth size cap nofun nofun) (by simp [takeOperands])
  | verify size => exact decode_of_select (selectCommand_headerWord .verify size 0 nofun (fun _ => rfl)) (by simp [takeOperands])

/-- Settles O1, by the row of each command. -/
theorem decodeOfEncodeIsTheCommand : Obligations.DecodeOfEncodeIsTheCommand := fun _ rest hi => decode_encode hi rest

/-- A command's operand words, read behind a header that selects it, are its encoding (rules R81 to R85). -/
theorem eq_encode_of_readsOperands {o : Opcode} {h : Word} {ws rest : List Word} {i : Instr} (hs : selectCommand h = .ok o)
    (hr : ReadsOperands h rest o ws i) : i.WellFormed = true ∧ h :: ws = encode i ++ rest := by
  obtain ⟨-, -, ha, hb⟩ := selectCommand_ok hs
  have hh := header_of_selectCommand hs
  cases hr with
  | sha1Init | sha1Update | sha1Final =>
    rw [ha rfl, hb rfl] at hh
    exact ⟨rfl, congrArg (· :: _) hh⟩
  | hmac | verify =>
    rw [hb rfl] at hh
    exact ⟨rfl, congrArg (· :: _) hh⟩
  | hmacv keyPtr dstPtr frags hcount =>
    have hlt := (fieldB h).isLt
    have hfield : BitVec.ofNat 8 frags.length = fieldB h := by rw [hcount, BitVec.ofNat_toNat, BitVec.setWidth_eq]
    refine ⟨decide_eq_true (by omega), ?_⟩
    rw [encode, hfield]
    exact congrArg (· :: _) hh
  | auth => exact ⟨rfl, congrArg (· :: _) hh⟩

theorem decode_eq_command_iff {ws rest : List Word} {i : Instr} :
    decode ws = .command i rest ↔ i.WellFormed = true ∧ ws = encode i ++ rest := by
  constructor
  · intro hd
    cases ws with
    | nil => cases hd
    | cons h ws =>
      obtain ⟨o, hs, hr⟩ := decode_cons_eq_command_iff.mp hd
      exact eq_encode_of_readsOperands hs hr
  · rintro ⟨hi, rfl⟩
    exact decode_encode hi rest

theorem decode_eq_illegal_iff {ws rest : List Word} {why : Illegal} :
    decode ws = .illegal why rest ↔ ∃ h, ws = h :: rest ∧ selectCommand h = .error why := by
  cases ws with
  | nil => simp [decode]
  | cons h ws =>
    rw [decode_cons_eq_illegal_iff]
    constructor
    · rintro ⟨hs, rfl⟩
      exact ⟨h, rfl, hs⟩
    · rintro ⟨_, heq, hs⟩
      cases heq
      exact ⟨hs, rfl⟩

/-- A proper beginning of a command's words is no whole command and no illegal header (rule R90). -/
theorem decode_take_encode {i : Instr} {k : Nat} (hi : i.WellFormed = true) (hk : k < (encode i).length) :
    decode ((encode i).take k) = .incomplete := by
  have hsplit : (encode i).take k ++ (encode i).drop k = encode i := List.take_append_drop k (encode i)
  have hwhole : decode ((encode i).take k ++ (encode i).drop k) = .command i [] := by
    rw [hsplit]
    exact decode_eq_command_iff.mpr ⟨hi, (List.append_nil _).symm⟩
  cases hd : decode ((encode i).take k) with
  | incomplete => rfl
  | command j rest =>
    obtain ⟨hj, htake⟩ := decode_eq_command_iff.mp hd
    rw [htake, List.append_assoc, decode_encode hj] at hwhole
    injection hwhole with _ hrest
    have hdrop : (encode i).drop k = [] := (List.append_eq_nil_iff.mp hrest).2
    exact absurd (List.drop_eq_nil_iff.mp hdrop) (Nat.not_le.mpr hk)
  | illegal why rest =>
    obtain ⟨h, htake, hs⟩ := decode_eq_illegal_iff.mp hd
    rw [htake, List.cons_append, decode_of_select_error _ hs] at hwhole
    cases hwhole

/-- Settles O2, from the two directions of the decoder's characterisation. -/
theorem decodedWordsAreTheEncoding : Obligations.DecodedWordsAreTheEncoding := fun _ _ _ hd => decode_eq_command_iff.mp hd

/-- Settles O7, by running the decoder. -/
theorem workedEncodings : Obligations.WorkedEncodings := by
  unfold Obligations.WorkedEncodings
  decide

end Sys2Proof

namespace Sys2Proof.Machine

/-- Settles O8: the two fields of the response word, and table T-R200 row by row. -/
theorem responseWordLayout : Obligations.ResponseWordLayout := by
  refine ⟨fun st v => ⟨?_, responseStatus_responseWord st v, responseValue_responseWord st v⟩, rfl, rfl, rfl, rfl, rfl, rfl, rfl, rfl⟩
  have hcode := statusCode_le st
  have hv := v.isLt
  rw [responseWord_toNat]
  omega

end Sys2Proof.Machine
end

section
/-! PROOFS. The two-word bit counter and the chunks of a message (rules R22, R24, R122, R136). -/

namespace Sys2Proof.Machine

theorem ctxUpdate_append (c : Ctx) (m n : List Byte) : ctxUpdate c (m ++ n) = ctxUpdate (ctxUpdate c m) n := List.foldl_append

theorem ctxUpdate_singleton (c : Ctx) (x : Byte) : ctxUpdate c [x] = absorbByte c x := rfl

theorem carryHigh_eq (lo hi : Word) : carryHigh lo hi = if lo.toNat < 8 then hi + 1 else hi := rfl

/-- A counter that is a multiple of 8 takes the carry exactly when its low half wraps to 0 (rule R122). -/
theorem bitLength_absorbByte {c : Ctx} (x : Byte) (h8 : bitLength c % 8 = 0) :
    bitLength (absorbByte c x) = (bitLength c + 8) % 2 ^ 64 := by
  have hlo := c.lenLo.isLt
  have hhi := c.lenHi.isLt
  have hsum : (c.lenLo + 8).toNat = (c.lenLo.toNat + 8) % 2 ^ 32 := BitVec.toNat_add _ _
  have hcarry : (c.lenHi + 1).toNat = (c.lenHi.toNat + 1) % 2 ^ 32 := BitVec.toNat_add _ _
  rw [bitLength] at h8
  rw [bitLength, absorbByte_lenLo, absorbByte_lenHi, carryHigh_eq, bitLength]
  split <;> omega

theorem bitLength_ctxUpdate {c : Ctx} {m : List Byte} (h8 : bitLength c % 8 = 0) (hlt : bitLength c + 8 * m.length < 2 ^ 64) :
    bitLength (ctxUpdate c m) = bitLength c + 8 * m.length := by
  induction m generalizing c with
  | nil => exact (Nat.add_zero _).symm
  | cons x m ih =>
    rw [List.length_cons] at hlt
    have hx := bitLength_absorbByte x h8
    rw [ctxUpdate_cons, ih (by omega) (by omega), List.length_cons]
    omega

theorem countersAgree_ctxInit : CountersAgree ctxInit := ⟨rfl, rfl⟩

theorem absorbByte_keeps_countersAgree {c : Ctx} (x : Byte) (hc : CountersAgree c) : CountersAgree (absorbByte c x) := by
  obtain ⟨h8, hidx⟩ := hc
  have hx := bitLength_absorbByte x h8
  have hi := absorbByte_idx c x
  constructor <;> omega

theorem ctxUpdate_keeps_countersAgree {c : Ctx} (m : List Byte) (hc : CountersAgree c) : CountersAgree (ctxUpdate c m) := by
  induction m generalizing c with
  | nil => exact hc
  | cons x m ih => exact ih (absorbByte_keeps_countersAgree x hc)

/-- Settles O33: the carry of one byte, and the count by induction on the bytes. -/
theorem counterCountsBits : Obligations.CounterCountsBits := by
  refine ⟨fun c x => ⟨absorbByte_lenLo c x, ?_⟩, fun c m h8 hlt => bitLength_ctxUpdate h8 hlt⟩
  rw [ctxUpdate_singleton, absorbByte_lenHi, carryHigh_eq]

/-- Settles O35: an update is a fold over the bytes. -/
theorem chunkingLaw : Obligations.ChunkingLaw := fun c m n => (ctxUpdate_append c m n).symm

end Sys2Proof.Machine
end

section
/-! PROOFS. What a command that completes answers, and what follows for a step: its answer, its termination, the order of a stream and
the invariant (rules R30, R62, R89, R90, R130 to R132, R165, R166, R182, R183, R251). -/

namespace Sys2Proof.Machine

/-! ### When a command completes -/

/-- The command meets the condition of no failure in the state `s`, and answers `t`. -/
inductive Completes (s : State) : Instr → State → Prop where
  | init : Completes s .sha1Init (((s.setHash ctxInit).setPhase .active).respond .ok 0)
  | update {srcPtr srcLen : Word} (hphase : s.phase = .active) (hsrc : readOk s srcPtr.toNat srcLen.toNat = true)
    (hlen : bitLength s.hs + 8 * srcLen.toNat < 2 ^ 64) : Completes s (.sha1Update srcPtr srcLen)
      ((s.setHash (ctxUpdate s.hs (s.mem.readBytes srcPtr.toNat srcLen.toNat))).respond .ok 0)
  | final {dstPtr : Word} (hphase : s.phase = .active) (hdst : writeOk s dstPtr.toNat 20 = true) : Completes s (.sha1Final dstPtr)
      (((((s.setHash (ctxAfterFinal s.freeCtx)).drawFree).setMem (s.mem.writeBytes dstPtr.toNat (ctxDigest s.hs))).setPhase
        .idle).respond .ok 0)
  | hmac {klen : Byte} {msgPtr msgLen keyPtr dstPtr : Word} (hklen : klen.toNat ≤ 64)
    (hkey : readOk s keyPtr.toNat klen.toNat = true) (hmsg : readOk s msgPtr.toNat msgLen.toNat = true)
    (hdst : writeOk s dstPtr.toNat 20 = true) : Completes s (.hmac klen msgPtr msgLen keyPtr dstPtr)
      ((s.setMem (s.mem.writeBytes dstPtr.toNat (Machine.hmac (s.mem.readBytes keyPtr.toNat klen.toNat)
        [s.mem.readBytes msgPtr.toNat msgLen.toNat]))).respond .ok 0)
  | hmacv {klen : Byte} {keyPtr dstPtr : Word} {frags : List Fragment} (hklen : klen.toNat ≤ 64)
    (hkey : readOk s keyPtr.toNat klen.toNat = true) (hfrags : fragmentsOk s frags = true)
    (hdst : writeOk s dstPtr.toNat 20 = true) : Completes s (.hmacv klen keyPtr dstPtr frags)
      ((s.setMem (s.mem.writeBytes dstPtr.toNat (Machine.hmac (s.mem.readBytes keyPtr.toNat klen.toNat)
        (frags.map (readFragment s.mem))))).respond .ok 0)
  | auth {size cap : Byte} {bufPtr keyPtr : Word} (hcap : size.toNat + 10 ≤ cap.toNat)
    (hkey : readOk s keyPtr.toNat 16 = true) (hbuf : readOk s bufPtr.toNat size.toNat = true)
    (hdst : writeOk s (bufPtr.toNat + size.toNat) 10 = true) : Completes s (.auth size cap bufPtr keyPtr)
      ((s.setMem (s.mem.writeBytes (bufPtr.toNat + size.toNat) (tag (s.mem.readBytes keyPtr.toNat 16)
        (s.mem.readBytes bufPtr.toNat size.toNat)))).respond .ok (BitVec.ofNat 8 (size.toNat + 10)))
  | verify {size : Byte} {bufPtr keyPtr : Word} (hsize : 10 < size.toNat) (hkey : readOk s keyPtr.toNat 16 = true)
    (hbuf : readOk s bufPtr.toNat size.toNat = true)
    (htag : tag (s.mem.readBytes keyPtr.toNat 16) (s.mem.readBytes bufPtr.toNat (size.toNat - 10)) =
      s.mem.readBytes (bufPtr.toNat + (size.toNat - 10)) 10) : Completes s (.verify size bufPtr keyPtr)
      (s.respond .ok (BitVec.ofNat 8 (size.toNat - 10)))

theorem fragmentsOk_singleton (s : State) (f : Fragment) : fragmentsOk s [f] = readOk s f.ptr.toNat f.len.toNat := Bool.and_true _

theorem exec_cases {s t : State} {i : Instr} (h : exec i s = .next t) :
    (∃ f, Fails s i f ∧ t = s.raise f) ∨ Completes s i t := by
  cases i with
  | sha1Init => cases h; exact .inr .init
  | sha1Update srcPtr srcLen =>
    obtain ⟨hphase, ht⟩ | ⟨hphase, hsrc, ht⟩ | ⟨hphase, hsrc, hlen, ht⟩ | ⟨hphase, hsrc, hlen, rfl⟩ := execSha1Update_cases h
    · exact .inl ⟨_, .updateIdle hphase, ht⟩
    · exact .inl ⟨_, .updateFault hphase hsrc, ht⟩
    · exact .inl ⟨_, .updateOverflow hphase hsrc hlen, ht⟩
    · exact .inr (.update hphase hsrc hlen)
  | sha1Final dstPtr =>
    obtain ⟨hphase, ht⟩ | ⟨hphase, hdst, ht⟩ | ⟨hphase, hdst, rfl⟩ := execSha1Final_cases h
    · exact .inl ⟨_, .finalIdle hphase, ht⟩
    · exact .inl ⟨_, .finalFault hphase hdst, ht⟩
    · exact .inr (.final hphase hdst)
  | hmac klen msgPtr msgLen keyPtr dstPtr =>
    obtain ⟨hklen, ht⟩ | ⟨hklen, hmem, ht⟩ | ⟨hklen, hkey, hmsg, hdst, rfl⟩ := hmacCommand_cases h
    · exact .inl ⟨_, .hmacKey hklen, ht⟩
    · exact .inl ⟨_, .hmacFault hklen hmem, ht⟩
    · exact .inr (.hmac hklen hkey ((fragmentsOk_singleton s _).symm.trans hmsg) hdst)
  | hmacv klen keyPtr dstPtr frags =>
    obtain ⟨hklen, ht⟩ | ⟨hklen, hmem, ht⟩ | ⟨hklen, hkey, hfrags, hdst, rfl⟩ := hmacCommand_cases h
    · exact .inl ⟨_, .hmacvKey hklen, ht⟩
    · exact .inl ⟨_, .hmacvFault hklen hmem, ht⟩
    · exact .inr (.hmacv hklen hkey hfrags hdst)
  | auth size cap bufPtr keyPtr =>
    obtain ⟨hcap, ht⟩ | ⟨hcap, hmem, ht⟩ | ⟨hcap, hkey, hbuf, hdst, rfl⟩ := execAuth_cases h
    · exact .inl ⟨_, .authCapacity hcap, ht⟩
    · exact .inl ⟨_, .authFault hcap hmem, ht⟩
    · exact .inr (.auth hcap hkey hbuf hdst)
  | verify size bufPtr keyPtr =>
    obtain ⟨hsize, ht⟩ | ⟨hsize, hmem, ht⟩ | ⟨hsize, hkey, hbuf, hdiff, ht⟩ | ⟨hsize, hkey, hbuf, hsame, rfl⟩ :=
      execVerify_cases h
    · exact .inl ⟨_, .verifySize hsize, ht⟩
    · exact .inl ⟨_, .verifyFault hsize hmem, ht⟩
    · exact .inl ⟨_, .verifyTag hsize hkey hbuf ((tagDifference_tag_ne_zero_iff _ _ _ _).mp hdiff), ht⟩
    · exact .inr (.verify hsize hkey hbuf ((tagDifference_eq_zero_iff (by simp)).mp hsame))

theorem hmacCommand_of_ok {klen : Byte} {keyPtr dstPtr : Word} {frags : List Fragment} {s : State} (hklen : klen.toNat ≤ 64)
    (hkey : readOk s keyPtr.toNat klen.toNat = true) (hfrags : fragmentsOk s frags = true)
    (hdst : writeOk s dstPtr.toNat 20 = true) : hmacCommand klen keyPtr dstPtr frags s =
      .next ((s.setMem (s.mem.writeBytes dstPtr.toNat (Machine.hmac (s.mem.readBytes keyPtr.toNat klen.toNat)
        (frags.map (readFragment s.mem))))).respond .ok 0) := by
  rw [hmacCommand, if_neg (not_lt.mpr hklen), if_neg (by simp [hkey]), if_neg (by simp [hfrags]), if_neg (by simp [hdst])]

theorem exec_of_completes {s t : State} {i : Instr} (h : Completes s i t) : exec i s = .next t := by
  cases h with
  | init => rfl
  | update hphase hsrc hlen =>
    rw [exec, execSha1Update, if_neg (by simp [(isActive_iff s).mpr hphase]), if_neg (by simp [hsrc]), if_neg (not_le.mpr hlen)]
  | final hphase hdst =>
    rw [exec, execSha1Final, if_neg (by simp [(isActive_iff s).mpr hphase]), if_neg (by simp [hdst])]
  | hmac hklen hkey hmsg hdst => exact hmacCommand_of_ok hklen hkey ((fragmentsOk_singleton s _).trans hmsg) hdst
  | hmacv hklen hkey hfrags hdst => exact hmacCommand_of_ok hklen hkey hfrags hdst
  | auth hcap hkey hbuf hdst =>
    rw [exec, execAuth, if_neg (not_lt.mpr hcap), if_neg (by simp [hkey]), if_neg (by simp [hbuf]), if_neg (by simp [hdst])]
  | verify hsize hkey hbuf htag =>
    have hsame := (tagDifference_eq_zero_iff (by simp)).mpr htag
    rw [exec, execVerify, if_neg (not_le.mpr hsize), if_neg (by simp [hkey]), if_neg (by simp [hbuf]), if_neg (not_not.mpr hsame)]

/-- Every command in every state either fails or completes (rule R251). -/
theorem exists_exec_eq_next (i : Instr) (s : State) : ∃ t, exec i s = .next t := by
  cases i
  case sha1Init => exact ⟨_, rfl⟩
  all_goals
    simp only [exec, execSha1Update, execSha1Final, execHmac, execHmacv, hmacCommand, execAuth, execVerify]
    split_ifs
  all_goals exact ⟨_, rfl⟩

/-! ### What a command leaves unchanged, and the one response it appends -/

theorem exec_cmdq {s t : State} {i : Instr} (h : exec i s = .next t) : t.cmdq = s.cmdq := by
  obtain ⟨f, -, rfl⟩ | hc := exec_cases h
  · rfl
  · cases hc <;> rfl

theorem exec_platform {s t : State} {i : Instr} (h : exec i s = .next t) : t.platform = s.platform := by
  obtain ⟨f, -, rfl⟩ | hc := exec_cases h
  · rfl
  · cases hc <;> rfl

theorem legalResponse_responseWord {st : Status} {v : Byte} (hv : st ≠ .ok → v = 0) : LegalResponse (responseWord st v) := by
  have hcode := statusCode_le st
  have hlt := v.isLt
  refine ⟨by rw [responseWord_toNat]; omega, by rwa [responseStatus_responseWord], fun hst => ?_⟩
  rw [responseStatus_responseWord] at hst
  rw [responseValue_responseWord, hv (fun h => hst (h ▸ rfl))]
  rfl

theorem exec_rspq {s t : State} {i : Instr} (h : exec i s = .next t) : ∃ w, t.rspq = s.rspq ++ [w] ∧ LegalResponse w := by
  obtain ⟨f, -, rfl⟩ | ⟨v, hok⟩ := fails_or_ok_of_exec h
  · exact ⟨_, rfl, legalResponse_responseWord fun _ => rfl⟩
  · exact ⟨_, hok, legalResponse_responseWord fun hne => absurd rfl hne⟩

/-! ### The invariant -/

theorem completes_keeps_wf {s t : State} {i : Instr} (hm : Memory.wf s.mem = true) (h : Completes s i t) :
    Memory.wf t.mem = true := by
  cases h with
  | init | update | verify => exact hm
  | final hphase hdst => exact Memory.writeBytes_keeps_wf hm (by simpa using admitted_bound hdst)
  | hmac hklen hkey hmsg hdst => exact Memory.writeBytes_keeps_wf hm (by simpa using admitted_bound hdst)
  | hmacv hklen hkey hfrags hdst => exact Memory.writeBytes_keeps_wf hm (by simpa using admitted_bound hdst)
  | auth hcap hkey hbuf hdst => exact Memory.writeBytes_keeps_wf hm (by simpa using admitted_bound hdst)

theorem completes_keeps_countersAgree {s t : State} {i : Instr} (hc : s.phase = .active → CountersAgree s.hs)
    (h : Completes s i t) (ht : t.phase = .active) : CountersAgree t.hs := by
  cases h with
  | init => exact countersAgree_ctxInit
  | update hphase => exact ctxUpdate_keeps_countersAgree _ (hc hphase)
  | final => cases ht
  | hmac | hmacv | auth | verify => exact hc ht

theorem exec_keeps_inv {s t : State} {i : Instr} (hs : Inv s) (h : exec i s = .next t) : Inv t := by
  obtain ⟨hm, hc, hr⟩ := hs
  refine ⟨?_, ?_, ?_⟩
  · obtain ⟨f, -, rfl⟩ | hdone := exec_cases h
    · exact hm
    · exact completes_keeps_wf hm hdone
  · obtain ⟨f, -, rfl⟩ | hdone := exec_cases h
    · exact hc
    · exact completes_keeps_countersAgree hc hdone
  · obtain ⟨w, hw, hlegal⟩ := exec_rspq h
    rw [hw]
    exact List.forall_mem_append.mpr ⟨hr, List.forall_mem_singleton.mpr hlegal⟩

theorem raise_keeps_inv {s : State} (f : Status) (hs : Inv s) : Inv (s.raise f) := by
  obtain ⟨hm, hc, hr⟩ := hs
  exact ⟨hm, hc, List.forall_mem_append.mpr ⟨hr, List.forall_mem_singleton.mpr (legalResponse_responseWord fun _ => rfl)⟩⟩

/-- Settles O20: consuming words touches nothing the invariant speaks of, and then a command or a failure keeps it. -/
theorem invariantKeptByStep : Obligations.InvariantKeptByStep := by
  intro s t hs hstep
  have hq : ∀ rest, Inv (s.setCmdq rest) := fun _ => hs
  obtain ⟨i, rest, -, hexec⟩ | ⟨why, rest, -, rfl⟩ | ⟨-, rfl⟩ := step_cases hstep
  · exact exec_keeps_inv (hq rest) hexec
  · exact raise_keeps_inv _ (hq rest)
  · exact hs

/-- Settles O19: memory lists nothing, the phase is idle and there is no response. -/
theorem invariantHoldsAtReset : Obligations.InvariantHoldsAtReset := ⟨rfl, nofun, nofun⟩

/-! ### Steps -/

theorem step_of_incomplete {s : State} (hd : decode s.cmdq = .incomplete) : step s = .next s := by
  simp only [step, State.fetch, hd]

theorem exists_step_eq_next (s : State) : ∃ t, step s = .next t := by
  cases hd : decode s.cmdq with
  | command i rest => exact step_of_decode_command hd ▸ exists_exec_eq_next i _
  | illegal why rest => exact ⟨_, step_of_decode_illegal hd⟩
  | incomplete => exact ⟨s, step_of_incomplete hd⟩

/-- Settles O11: the step's first case. -/
theorem stepRunsDecodedCommand : Obligations.StepRunsDecodedCommand := fun _ _ _ hd => step_of_decode_command hd

/-- Settles O16: every branch of every meaning, and of the step, is a next state. -/
theorem everyCommandTerminates : Obligations.EveryCommandTerminates := ⟨exists_exec_eq_next, exists_step_eq_next⟩

/-- Settles O17: the command stream is empty. -/
theorem resetLeaves : Obligations.ResetLeaves := ⟨rfl, rfl, rfl, step_of_incomplete rfl⟩

/-- Settles O18: the command stream is emptied. -/
theorem platformResetEffect : Obligations.PlatformResetEffect := fun _ => ⟨rfl, rfl, rfl, rfl, rfl, step_of_incomplete rfl⟩

/-- Settles O13: a proper beginning decodes to nothing, and with the words behind it the stream is the command's encoding. -/
theorem incompleteCommandWaits : Obligations.IncompleteCommandWaits := by
  intro s i k hi hq
  refine ⟨fun hk => step_of_incomplete (by rw [hq, decode_take_encode hi hk]), ?_⟩
  have hwhole : (s.supply ((encode i).drop k)).cmdq = encode i ++ [] := by
    rw [State.supply, State.setCmdq_cmdq, hq, List.take_append_drop, List.append_nil]
  exact step_of_decode_command (decode_eq_command_iff.mpr ⟨hi, hwhole⟩)

/-- Settles O14, by what the decoder finds: a command's encoding, an illegal header, or neither. -/
theorem stepAnswersOnceOrWaits : Obligations.StepAnswersOnceOrWaits := by
  intro s
  obtain ⟨t, hstep⟩ := exists_step_eq_next s
  obtain ⟨i, rest, hd, hexec⟩ | ⟨why, rest, hd, rfl⟩ | ⟨hd, rfl⟩ := step_cases hstep
  · obtain ⟨-, hq⟩ := decode_eq_command_iff.mp hd
    obtain ⟨w, hw, hlegal⟩ := exec_rspq hexec
    exact .inr ⟨t, encode i, w, hstep, encode_ne_nil i, by rw [exec_cmdq hexec]; exact hq, hw, hlegal⟩
  · obtain ⟨h, hq, -⟩ := decode_eq_illegal_iff.mp hd
    exact .inr ⟨_, [h], _, hstep, List.cons_ne_nil h [], hq, rfl, legalResponse_responseWord fun _ => rfl⟩
  · exact .inl ⟨hd, hstep⟩

end Sys2Proof.Machine
end

section
/-! PROOFS. Memory ranges (rules R53, R54, R56, R60). -/

namespace Sys2Proof.Machine

theorem Memory.sameOutside_writeBytes (m : Memory) (p : Nat) (bs : List Byte) : SameOutside m (m.writeBytes p bs) p bs.length :=
  fun a ha => by rw [Memory.read_writeBytes, if_neg ha]

theorem Memory.read_writeBytes_add (m : Memory) (p : Nat) (bs : List Byte) {i : Nat} (hi : i < bs.length) :
    (m.writeBytes p bs).read (p + i) = bs.getD i 0 := by
  rw [Memory.read_writeBytes, if_pos (by omega), Nat.add_sub_cancel_left]

theorem Memory.readBytes_writeBytes {m : Memory} {p n : Nat} {bs : List Byte} (hn : bs.length = n) :
    (m.writeBytes p bs).readBytes p n = bs := by
  subst hn
  refine List.ext_getElem (Memory.readBytes_length _ _ _) fun i _ hi => ?_
  rw [Memory.readBytes_getElem, Memory.read_writeBytes_add m p bs hi, List.getD_eq_getElem bs 0 hi]

/-- `WriteBytes` leaves a range below it as it was (rule R54). -/
theorem Memory.readBytes_writeBytes_below (m : Memory) (p n : Nat) (bs : List Byte) :
    (m.writeBytes (p + n) bs).readBytes p n = m.readBytes p n :=
  Memory.readBytes_congr fun a _ ha => Memory.sameOutside_writeBytes m (p + n) bs a (by omega)

theorem admitted_iff (regions : List Region) (p n : Nat) :
    admitted regions p n = true ↔ n = 0 ∨ (p + n ≤ 2 ^ 32 ∧ ∀ a, p ≤ a → a < p + n → covered regions a = true) := by
  have hall : (∀ i, i < n → covered regions (p + i) = true) ↔ ∀ a, p ≤ a → a < p + n → covered regions a = true := by
    constructor
    · intro h a hp ha
      have hi := h (a - p) (by omega)
      rwa [Nat.add_sub_cancel' hp] at hi
    · intro h i hi
      exact h (p + i) (by omega) (by omega)
  simp only [admitted, Bool.or_eq_true, Bool.and_eq_true, decide_eq_true_eq, List.all_eq_true, List.mem_range, hall]

/-- Settles O27, byte by byte. -/
theorem bytesWrittenAreRead : Obligations.BytesWrittenAreRead :=
  fun m p bs => ⟨Memory.readBytes_writeBytes rfl, Memory.sameOutside_writeBytes m p bs⟩

/-- Settles O28: the two sets of addresses are admitted against alike. -/
theorem rangeAdmission : Obligations.RangeAdmission := fun s p n => ⟨admitted_iff s.platform.readable p n, admitted_iff s.platform.writable p n⟩

end Sys2Proof.Machine
end

section
/-! PROOFS. What a command depends on and what it leaves alone (rules R26, R27, R58), and the order of a stream (rules R30, R62). -/

namespace Sys2Proof.Machine

/-! ### The ranges written -/

theorem not_in_written_range {p n a : Nat} (ha : ∀ r ∈ [(p, n)], inRange r a = false) : ¬(p ≤ a ∧ a < p + n) := by
  simpa [inRange] using ha

theorem completes_mem_frame {s t : State} {i : Instr} (h : Completes s i t) {a : Nat}
    (ha : ∀ r ∈ writeRanges i, inRange r a = false) : t.mem.read a = s.mem.read a := by
  cases h with
  | init | update | verify => rfl
  | final => exact Memory.sameOutside_writeBytes s.mem _ _ a (by rw [ctxDigest_length]; exact not_in_written_range ha)
  | hmac | hmacv => exact Memory.sameOutside_writeBytes s.mem _ _ a (by rw [hmac_length]; exact not_in_written_range ha)
  | auth => exact Memory.sameOutside_writeBytes s.mem _ _ a (by rw [tag_length]; exact not_in_written_range ha)

/-- Settles O22: a failure writes no byte, and a command that completes only its row of table T-R58. -/
theorem commandsWriteOnlyTheirRanges : Obligations.CommandsWriteOnlyTheirRanges := by
  intro i s t h
  obtain ⟨w, hw, -⟩ := exec_rspq h
  refine ⟨exec_cmdq h, exec_platform h, ⟨w, hw⟩, fun a ha => ?_⟩
  obtain ⟨f, -, rfl⟩ | hc := exec_cases h
  · rfl
  · exact completes_mem_frame hc ha

/-! ### What a command reads -/

/-- The commands that read `PHASE` and `HS` (rules R25, R26). -/
def UsesHash : Instr → Prop
  | .sha1Init | .sha1Update _ _ | .sha1Final _ => True
  | .hmac _ _ _ _ _ | .hmacv _ _ _ _ | .auth _ _ _ _ | .verify _ _ _ => False

/-- The states `s` and `s'` agree on all that a command reads: the platform, for a hash command `PHASE` and while it is active `HS`, and
the ranges that table T-R58 says it reads. -/
structure SameInput (i : Instr) (s s' : State) : Prop where
  platform : s'.platform = s.platform
  phase : UsesHash i → s'.phase = s.phase
  hash : UsesHash i → s.phase = .active → s'.hs = s.hs
  ranges : ∀ r ∈ readRanges i, ∀ a, inRange r a = true → s'.mem.read a = s.mem.read a

theorem SameInput.readOk_eq {i : Instr} {s s' : State} (h : SameInput i s s') (p n : Nat) : readOk s' p n = readOk s p n := by
  rw [readOk, readOk, h.platform]

theorem SameInput.writeOk_eq {i : Instr} {s s' : State} (h : SameInput i s s') (p n : Nat) : writeOk s' p n = writeOk s p n := by
  rw [writeOk, writeOk, h.platform]

theorem SameInput.fragmentsOk_eq {i : Instr} {s s' : State} (h : SameInput i s s') (frags : List Fragment) :
    fragmentsOk s' frags = fragmentsOk s frags := by
  simp only [fragmentsOk, h.readOk_eq]

theorem SameInput.readBytes_eq {i : Instr} {s s' : State} (h : SameInput i s s') {p n : Nat} (hr : (p, n) ∈ readRanges i)
    (q k : Nat) (hq : p ≤ q) (hk : q + k ≤ p + n) : s'.mem.readBytes q k = s.mem.readBytes q k :=
  Memory.readBytes_congr fun a ha hak => h.ranges _ hr a (by simp only [inRange, Bool.and_eq_true, decide_eq_true_eq]; omega)

theorem SameInput.readRange_eq {i : Instr} {s s' : State} (h : SameInput i s s') {p n : Nat} (hr : (p, n) ∈ readRanges i) :
    s'.mem.readBytes p n = s.mem.readBytes p n := h.readBytes_eq hr p n (Nat.le_refl _) (Nat.le_refl _)

theorem SameInput.readFragments_eq {klen : Byte} {keyPtr dstPtr : Word} {frags : List Fragment} {s s' : State}
    (h : SameInput (.hmacv klen keyPtr dstPtr frags) s s') : frags.map (readFragment s'.mem) = frags.map (readFragment s.mem) :=
  List.map_congr_left fun _ hf => h.readRange_eq (List.mem_cons_of_mem _ (List.mem_map_of_mem hf))

/-- VERIFY compares the same bytes with the same tag (rule R186). -/
theorem SameInput.tag_eq_received_iff {size : Byte} {bufPtr keyPtr : Word} {s s' : State}
    (h : SameInput (.verify size bufPtr keyPtr) s s') (hsize : 10 < size.toNat) :
    tag (s'.mem.readBytes keyPtr.toNat 16) (s'.mem.readBytes bufPtr.toNat (size.toNat - 10)) =
        s'.mem.readBytes (bufPtr.toNat + (size.toNat - 10)) 10 ↔
      tag (s.mem.readBytes keyPtr.toNat 16) (s.mem.readBytes bufPtr.toNat (size.toNat - 10)) =
        s.mem.readBytes (bufPtr.toNat + (size.toNat - 10)) 10 := by
  have hbuf : (bufPtr.toNat, size.toNat) ∈ readRanges (.verify size bufPtr keyPtr) := .tail _ (.head _)
  rw [h.readRange_eq (.head _), h.readBytes_eq hbuf bufPtr.toNat (size.toNat - 10) (by omega) (by omega),
    h.readBytes_eq hbuf (bufPtr.toNat + (size.toNat - 10)) 10 (by omega) (by omega)]

theorem SameInput.fails {i : Instr} {s s' : State} {f : Status} (h : SameInput i s s') (hf : Fails s i f) : Fails s' i f := by
  cases hf with
  | updateIdle hphase => exact .updateIdle ((h.phase trivial).trans hphase)
  | updateFault hphase hsrc => exact .updateFault ((h.phase trivial).trans hphase) ((h.readOk_eq _ _).trans hsrc)
  | updateOverflow hphase hsrc hlen =>
    exact .updateOverflow ((h.phase trivial).trans hphase) ((h.readOk_eq _ _).trans hsrc) (by rwa [h.hash trivial hphase])
  | finalIdle hphase => exact .finalIdle ((h.phase trivial).trans hphase)
  | finalFault hphase hdst => exact .finalFault ((h.phase trivial).trans hphase) ((h.writeOk_eq _ _).trans hdst)
  | hmacKey hkey => exact .hmacKey hkey
  | hmacFault hkey hmem => exact .hmacFault hkey (by rwa [h.readOk_eq, h.fragmentsOk_eq, h.writeOk_eq])
  | hmacvKey hkey => exact .hmacvKey hkey
  | hmacvFault hkey hmem => exact .hmacvFault hkey (by rwa [h.readOk_eq, h.fragmentsOk_eq, h.writeOk_eq])
  | authCapacity hcap => exact .authCapacity hcap
  | authFault hcap hmem => exact .authFault hcap (by rwa [h.readOk_eq, h.readOk_eq, h.writeOk_eq])
  | verifySize hsize => exact .verifySize hsize
  | verifyFault hsize hmem => exact .verifyFault hsize (by rwa [h.readOk_eq, h.readOk_eq])
  | verifyTag hsize hkey hbuf htag =>
    exact .verifyTag hsize ((h.readOk_eq _ _).trans hkey) ((h.readOk_eq _ _).trans hbuf) ((h.tag_eq_received_iff hsize).not.mpr htag)

/-- In a memory that agrees on the ranges read, a command that completes does so alike and writes the same bytes (rules R58, R59). -/
theorem SameInput.completes {i : Instr} {s t : State} {m : Memory} (h : SameInput i s (s.setMem m)) (hc : Completes s i t) :
    ∃ p bs, t.mem = s.mem.writeBytes p bs ∧ Completes (s.setMem m) i (t.setMem (m.writeBytes p bs)) := by
  cases hc with
  | init => exact ⟨0, [], rfl, .init⟩
  | update hphase hsrc hlen =>
    refine ⟨0, [], rfl, ?_⟩
    rw [← h.readRange_eq (.head _)]
    exact .update hphase hsrc hlen
  | final hphase hdst => exact ⟨_, _, rfl, .final hphase hdst⟩
  | hmac hklen hkey hmsg hdst =>
    refine ⟨_, _, rfl, ?_⟩
    rw [← h.readRange_eq (.head _), ← h.readRange_eq (.tail _ (.head _))]
    exact .hmac hklen hkey hmsg hdst
  | hmacv hklen hkey hfrags hdst =>
    refine ⟨_, _, rfl, ?_⟩
    rw [← h.readRange_eq (.head _), ← h.readFragments_eq]
    exact .hmacv hklen hkey hfrags hdst
  | auth hcap hkey hbuf hdst =>
    refine ⟨_, _, rfl, ?_⟩
    rw [← h.readRange_eq (.head _), ← h.readRange_eq (.tail _ (.head _))]
    exact .auth hcap hkey hbuf hdst
  | verify hsize hkey hbuf htag => exact ⟨0, [], rfl, .verify hsize hkey hbuf ((h.tag_eq_received_iff hsize).mpr htag)⟩

/-- Settles O23: the same failure, or the same bytes written over both memories. -/
theorem commandsReadOnlyTheirRanges : Obligations.CommandsReadOnlyTheirRanges := by
  intro i s m hranges
  have hsame : SameInput i s (s.setMem m) := ⟨rfl, fun _ => rfl, fun _ _ => rfl, hranges⟩
  obtain ⟨t, h⟩ := exists_exec_eq_next i s
  obtain ⟨f, hf, rfl⟩ | hc := exec_cases h
  · exact ⟨_, _, h, exec_of_fails (hsame.fails hf), rfl, rfl, rfl, fun _ ha => ha⟩
  · obtain ⟨p, bs, hmem, hc'⟩ := hsame.completes hc
    refine ⟨t, _, h, exec_of_completes hc', rfl, rfl, rfl, fun a ha => ?_⟩
    rw [State.setMem_mem, hmem, Memory.read_writeBytes, Memory.read_writeBytes, ha]

/-! ### The hash context and its phase -/

theorem completes_of_keyed {i : Instr} {s t : State} (hkeyed : ¬UsesHash i) (h : Completes s i t) (c : Ctx) (p : Phase) :
    t.hs = s.hs ∧ t.phase = s.phase ∧ Completes { s with hs := c, phase := p } i { t with hs := c, phase := p } := by
  cases h with
  | init | update | final => exact absurd trivial hkeyed
  | hmac hklen hkey hmsg hdst => exact ⟨rfl, rfl, .hmac hklen hkey hmsg hdst⟩
  | hmacv hklen hkey hfrags hdst => exact ⟨rfl, rfl, .hmacv hklen hkey hfrags hdst⟩
  | auth hcap hkey hbuf hdst => exact ⟨rfl, rfl, .auth hcap hkey hbuf hdst⟩
  | verify hsize hkey hbuf htag => exact ⟨rfl, rfl, .verify hsize hkey hbuf htag⟩

theorem exec_of_keyed {i : Instr} {s t : State} (hkeyed : ¬UsesHash i) (h : exec i s = .next t) (c : Ctx) (p : Phase) :
    t.hs = s.hs ∧ t.phase = s.phase ∧ exec i { s with hs := c, phase := p } = .next { t with hs := c, phase := p } := by
  obtain ⟨f, hf, rfl⟩ | hc := exec_cases h
  · have hsame : SameInput i s { s with hs := c, phase := p } :=
      ⟨rfl, fun hu => absurd hu hkeyed, fun hu => absurd hu hkeyed, fun _ _ _ _ => rfl⟩
    exact ⟨rfl, rfl, exec_of_fails (hsame.fails hf)⟩
  · obtain ⟨hhs, hphase, hc'⟩ := completes_of_keyed hkeyed hc c p
    exact ⟨hhs, hphase, exec_of_completes hc'⟩

/-- Settles O24: neither a failure nor the completion of the four commands involves the hash context. -/
theorem keyedCommandsIgnoreHashState : Obligations.KeyedCommandsIgnoreHashState := by
  intro i s t c p hkeyed h
  refine exec_of_keyed (fun hu => ?_) h c p
  cases i with
  | sha1Init | sha1Update | sha1Final => exact hkeyed
  | hmac | hmacv | auth | verify => exact hu

/-- Settles O25: in an idle state only SHA1_INIT, which overwrites the context, and the keyed commands complete. -/
theorem idleHashStateUnobservable : Obligations.IdleHashStateUnobservable := by
  intro i s t c hidle h
  have hnot : s.phase ≠ .active := by rw [hidle]; decide
  obtain ⟨f, hf, rfl⟩ | hc := exec_cases h
  · have hsame : SameInput i s { s with hs := c } :=
      ⟨rfl, fun _ => rfl, fun _ hactive => absurd hactive hnot, fun _ _ _ _ => rfl⟩
    exact ⟨_, exec_of_fails (hsame.fails hf), rfl, fun hactive => absurd hactive hnot⟩
  · cases hc with
    | init => exact ⟨_, rfl, rfl, fun _ => rfl⟩
    | update hphase | final hphase => exact absurd hphase hnot
    | hmac | hmacv | auth | verify =>
      obtain ⟨-, hphase, h'⟩ := exec_of_keyed id h c s.phase
      exact ⟨_, h', rfl, fun hactive => absurd hactive hnot⟩

/-! ### The command stream -/

theorem completes_setCmdq {i : Instr} {s t : State} (h : Completes s i t) (ws : List Word) :
    Completes (s.setCmdq ws) i (t.setCmdq ws) := by
  cases h with
  | init => exact .init
  | update hphase hsrc hlen => exact .update hphase hsrc hlen
  | final hphase hdst => exact .final hphase hdst
  | hmac hklen hkey hmsg hdst => exact .hmac hklen hkey hmsg hdst
  | hmacv hklen hkey hfrags hdst => exact .hmacv hklen hkey hfrags hdst
  | auth hcap hkey hbuf hdst => exact .auth hcap hkey hbuf hdst
  | verify hsize hkey hbuf htag => exact .verify hsize hkey hbuf htag

/-- A command does not look at the words behind it (rule R30). -/
theorem exec_setCmdq {i : Instr} {s t : State} (h : exec i s = .next t) (ws : List Word) :
    exec i (s.setCmdq ws) = .next (t.setCmdq ws) := by
  obtain ⟨f, hf, rfl⟩ | hc := exec_cases h
  · have hsame : SameInput i s (s.setCmdq ws) := ⟨rfl, fun _ => rfl, fun _ _ => rfl, fun _ _ _ _ => rfl⟩
    exact exec_of_fails (hsame.fails hf)
  · exact exec_of_completes (completes_setCmdq hc ws)

theorem execAll_cons {i : Instr} {s t : State} (h : exec i s = .next t) (is : List Instr) : execAll (i :: is) s = execAll is t := by
  simp only [execAll, h]

theorem runSteps_succ {s t : State} (h : step s = .next t) (n : Nat) : runSteps (n + 1) s = runSteps n t := by
  simp only [runSteps, h]

/-- Settles O15, by induction on the commands: a step takes the first, which does not look at the words of the others. -/
theorem streamExecutesInOrder : Obligations.StreamExecutesInOrder := by
  intro is
  induction is with
  | nil =>
    rintro s rest - rfl
    exact ⟨rfl, s, [], rfl, rfl, (List.append_nil _).symm, rfl⟩
  | cons i is ih =>
    intro s rest hwf hq
    obtain ⟨hi, his⟩ := List.forall_mem_cons.mp hwf
    rw [List.flatMap_cons, List.append_assoc] at hq
    have hstep := step_of_decode_command (decode_eq_command_iff.mpr ⟨hi, hq⟩)
    obtain ⟨t, hexec⟩ := exists_exec_eq_next i (s.setCmdq (is.flatMap encode ++ rest))
    obtain ⟨w, hw, -⟩ := exec_rspq hexec
    obtain ⟨hrun, u, ws, hu, hcmdq, hrspq, hlen⟩ := ih t rest his (exec_cmdq hexec)
    rw [List.length_cons, runSteps_succ (hstep.trans hexec)]
    refine ⟨?_, u, w :: ws, hu, hcmdq, ?_, congrArg (· + 1) hlen⟩
    · rw [hrun]
      exact (execAll_cons (exec_setCmdq hexec rest) is).symm
    · rw [hrspq, hw, List.append_assoc]
      rfl

end Sys2Proof.Machine
end

section
/-! PROOFS. The assembler: which lines it accepts, and the commands and words of each (rules R93, R94). -/

namespace Sys2Proof.Machine

theorem except_bind_eq_ok_iff {α β : Type} {x : Except AsmError α} {f : α → Except AsmError β} {b : β} :
    x >>= f = .ok b ↔ ∃ a, x = .ok a ∧ f a = .ok b := by
  cases x with
  | error e => simp [bind, Except.bind]
  | ok a => simp [bind, Except.bind]

theorem asmByte_eq_ok_iff {n : Nat} {b : Byte} : asmByte n = .ok b ↔ n ≤ 255 ∧ BitVec.ofNat 8 n = b := by
  unfold asmByte
  split
  · rw [Except.ok.injEq, and_iff_right (by omega)]
  · simp only [reduceCtorEq, false_iff, not_and]
    omega

theorem asmWord_eq_ok_iff {n : Nat} {w : Word} : asmWord n = .ok w ↔ n < 2 ^ 32 ∧ BitVec.ofNat 32 n = w := by
  unfold asmWord
  split
  · rw [Except.ok.injEq, and_iff_right ‹_›]
  · simp only [reduceCtorEq, false_iff, not_and]
    omega

/-- The fragment that a pair of numbers stands for, when both are words (rule R93). -/
def asmFragment (f : Nat × Nat) : Fragment := { ptr := BitVec.ofNat 32 f.1, len := BitVec.ofNat 32 f.2 }

theorem asmFragments_cons_eq_ok_iff {f : Nat × Nat} {fs : List (Nat × Nat)} {frags : List Fragment} :
    asmFragments (f :: fs) = .ok frags ↔
      ∃ p n rest, asmWord f.1 = .ok p ∧ asmWord f.2 = .ok n ∧ asmFragments fs = .ok rest ∧ { ptr := p, len := n } :: rest = frags := by
  rw [asmFragments]
  cases asmWord f.1 <;> cases asmWord f.2 <;> cases asmFragments fs <;> simp

theorem asmFragments_eq_ok_iff {fs : List (Nat × Nat)} {frags : List Fragment} :
    asmFragments fs = .ok frags ↔ (∀ f ∈ fs, f.1 < 2 ^ 32 ∧ f.2 < 2 ^ 32) ∧ fs.map asmFragment = frags := by
  induction fs generalizing frags with
  | nil => simp [asmFragments]
  | cons f fs ih =>
    rw [asmFragments_cons_eq_ok_iff, List.forall_mem_cons, List.map_cons]
    constructor
    · rintro ⟨p, n, rest, hp, hn, hrest, rfl⟩
      obtain ⟨hp32, rfl⟩ := asmWord_eq_ok_iff.mp hp
      obtain ⟨hn32, rfl⟩ := asmWord_eq_ok_iff.mp hn
      obtain ⟨hfs, rfl⟩ := ih.mp hrest
      exact ⟨⟨⟨hp32, hn32⟩, hfs⟩, rfl⟩
    · rintro ⟨⟨⟨hp, hn⟩, hfs⟩, rfl⟩
      exact ⟨_, _, _, asmWord_eq_ok_iff.mpr ⟨hp, rfl⟩, asmWord_eq_ok_iff.mpr ⟨hn, rfl⟩, ih.mpr ⟨hfs, rfl⟩, rfl⟩

theorem asmByte_bind_eq_ok_iff {α : Type} {n : Nat} {f : Byte → Except AsmError α} {b : α} :
    asmByte n >>= f = .ok b ↔ n ≤ 255 ∧ f (BitVec.ofNat 8 n) = .ok b := by
  simp only [except_bind_eq_ok_iff, asmByte_eq_ok_iff, and_assoc, exists_and_left, exists_eq_left']

theorem asmWord_bind_eq_ok_iff {α : Type} {n : Nat} {f : Word → Except AsmError α} {b : α} :
    asmWord n >>= f = .ok b ↔ n < 2 ^ 32 ∧ f (BitVec.ofNat 32 n) = .ok b := by
  simp only [except_bind_eq_ok_iff, asmWord_eq_ok_iff, and_assoc, exists_and_left, exists_eq_left']

theorem asmFragments_bind_eq_ok_iff {α : Type} {fs : List (Nat × Nat)} {f : List Fragment → Except AsmError α} {b : α} :
    asmFragments fs >>= f = .ok b ↔ (∀ f ∈ fs, f.1 < 2 ^ 32 ∧ f.2 < 2 ^ 32) ∧ f (fs.map asmFragment) = .ok b := by
  simp only [except_bind_eq_ok_iff, asmFragments_eq_ok_iff, and_assoc, exists_and_left, exists_eq_left']

/-- The ranges of rule R93 for the operands of a line; `.word` by log entry 9. -/
def AsmLine.InRange : AsmLine → Prop
  | .sha1Init => True
  | .sha1Update srcPtr srcLen => srcPtr < 2 ^ 32 ∧ srcLen < 2 ^ 32
  | .sha1Final dstPtr => dstPtr < 2 ^ 32
  | .hmac msgPtr msgLen keyPtr klen dstPtr =>
    msgPtr < 2 ^ 32 ∧ msgLen < 2 ^ 32 ∧ keyPtr < 2 ^ 32 ∧ klen ≤ 255 ∧ dstPtr < 2 ^ 32
  | .hmacv frags keyPtr klen dstPtr =>
    frags.length ≤ 255 ∧ (∀ f ∈ frags, f.1 < 2 ^ 32 ∧ f.2 < 2 ^ 32) ∧ keyPtr < 2 ^ 32 ∧ klen ≤ 255 ∧ dstPtr < 2 ^ 32
  | .auth bufPtr size cap keyPtr => bufPtr < 2 ^ 32 ∧ size ≤ 255 ∧ cap ≤ 255 ∧ keyPtr < 2 ^ 32
  | .verify bufPtr size keyPtr => bufPtr < 2 ^ 32 ∧ size ≤ 255 ∧ keyPtr < 2 ^ 32
  | .sha1 srcPtr srcLen dstPtr => srcPtr < 2 ^ 32 ∧ srcLen < 2 ^ 32 ∧ dstPtr < 2 ^ 32
  | .sha1Empty dstPtr => dstPtr < 2 ^ 32
  | .word w => w < 2 ^ 32

/-- The commands a line stands for, its operands taken modulo their widths (rules R93, R94). -/
def AsmLine.commands : AsmLine → List Instr
  | .sha1Init => [.sha1Init]
  | .sha1Update srcPtr srcLen => [.sha1Update (BitVec.ofNat 32 srcPtr) (BitVec.ofNat 32 srcLen)]
  | .sha1Final dstPtr => [.sha1Final (BitVec.ofNat 32 dstPtr)]
  | .hmac msgPtr msgLen keyPtr klen dstPtr =>
    [.hmac (BitVec.ofNat 8 klen) (BitVec.ofNat 32 msgPtr) (BitVec.ofNat 32 msgLen) (BitVec.ofNat 32 keyPtr) (BitVec.ofNat 32 dstPtr)]
  | .hmacv frags keyPtr klen dstPtr =>
    [.hmacv (BitVec.ofNat 8 klen) (BitVec.ofNat 32 keyPtr) (BitVec.ofNat 32 dstPtr) (frags.map asmFragment)]
  | .auth bufPtr size cap keyPtr =>
    [.auth (BitVec.ofNat 8 size) (BitVec.ofNat 8 cap) (BitVec.ofNat 32 bufPtr) (BitVec.ofNat 32 keyPtr)]
  | .verify bufPtr size keyPtr => [.verify (BitVec.ofNat 8 size) (BitVec.ofNat 32 bufPtr) (BitVec.ofNat 32 keyPtr)]
  | .sha1 srcPtr srcLen dstPtr => pseudoSha1 (BitVec.ofNat 32 srcPtr) (BitVec.ofNat 32 srcLen) (BitVec.ofNat 32 dstPtr)
  | .sha1Empty dstPtr => pseudoSha1Empty (BitVec.ofNat 32 dstPtr)
  | .word _ => []

theorem asmCommands_eq_ok_iff {l : AsmLine} {is : List Instr} (hl : ∀ w, l ≠ .word w) :
    asmCommands l = .ok is ↔ l.InRange ∧ l.commands = is := by
  cases l with
  | word w => exact absurd rfl (hl w)
  | sha1Init => simp [asmCommands, AsmLine.InRange, AsmLine.commands]
  | sha1Final | sha1Empty =>
    simp only [asmCommands, asmWord_bind_eq_ok_iff, Except.ok.injEq, AsmLine.InRange, AsmLine.commands]
  | sha1Update | hmac | auth | verify | sha1 =>
    simp only [asmCommands, asmWord_bind_eq_ok_iff, asmByte_bind_eq_ok_iff, Except.ok.injEq, AsmLine.InRange, AsmLine.commands]
    tauto
  | hmacv frags keyPtr klen dstPtr =>
    simp only [asmCommands, AsmLine.InRange, AsmLine.commands]
    split
    · rename_i hlong
      simp only [reduceCtorEq, false_iff]
      omega
    · simp only [asmWord_bind_eq_ok_iff, asmByte_bind_eq_ok_iff, asmFragments_bind_eq_ok_iff, Except.ok.injEq]
      have hshort : frags.length ≤ 255 := by omega
      tauto

theorem asmWords_word_eq_ok_iff {w : Nat} {ws : List Word} :
    asmWords (.word w) = .ok ws ↔ w < 2 ^ 32 ∧ [BitVec.ofNat 32 w] = ws := by
  simp only [asmWords, asmWord_bind_eq_ok_iff, Except.ok.injEq]

theorem asmWords_eq_bind {l : AsmLine} (hl : ∀ w, l ≠ .word w) :
    asmWords l = asmCommands l >>= fun is => .ok (is.flatMap encode) := by
  cases l with
  | word w => exact absurd rfl (hl w)
  | _ => rfl

theorem asmWords_eq_ok_iff {l : AsmLine} {ws : List Word} (hl : ∀ w, l ≠ .word w) :
    asmWords l = .ok ws ↔ l.InRange ∧ l.commands.flatMap encode = ws := by
  simp only [asmWords_eq_bind hl, except_bind_eq_ok_iff, asmCommands_eq_ok_iff hl, and_assoc, exists_and_left, exists_eq_left',
    Except.ok.injEq]

theorem exists_asmWords_eq_ok_iff (l : AsmLine) : (∃ ws, asmWords l = .ok ws) ↔ l.InRange := by
  by_cases hl : ∀ w, l ≠ .word w
  · simp only [asmWords_eq_ok_iff hl, exists_and_left, exists_eq', and_true]
  · obtain ⟨w, rfl⟩ : ∃ w, l = .word w := by simpa using hl
    simp only [asmWords_word_eq_ok_iff, exists_and_left, exists_eq', and_true, AsmLine.InRange]

/-- Settles O9: each operand is checked against its own range. -/
theorem assemblerAcceptsExactlyTheRanges : Obligations.AssemblerAcceptsExactlyTheRanges := by
  intro l
  cases l
  all_goals exact exists_asmWords_eq_ok_iff _

theorem commands_wellFormed {l : AsmLine} (hl : l.InRange) : ∀ i ∈ l.commands, i.WellFormed = true := by
  cases l with
  | word => exact nofun
  | hmacv frags =>
    obtain ⟨hlen, -⟩ := hl
    simpa [AsmLine.commands, Instr.WellFormed] using hlen
  | _ => simp [AsmLine.commands, pseudoSha1, pseudoSha1Empty, Instr.WellFormed]

theorem headerWord_ofNat {a b : Nat} (op : Byte) (ha : a ≤ 255) (hb : b ≤ 255) :
    headerWord op (BitVec.ofNat 8 a) (BitVec.ofNat 8 b) = BitVec.ofNat 32 (op.toNat + a * 2 ^ 8 + b * 2 ^ 16) := by
  rw [headerWord, BitVec.toNat_ofNat, BitVec.toNat_ofNat, Nat.mod_eq_of_lt (by omega), Nat.mod_eq_of_lt (by omega)]

theorem encodeFragments_map_asmFragment (fs : List (Nat × Nat)) :
    encodeFragments (fs.map asmFragment) = fs.flatMap (fun f => [BitVec.ofNat 32 f.1, BitVec.ofNat 32 f.2]) := by
  induction fs with
  | nil => rfl
  | cons f fs ih => rw [List.map_cons, encodeFragments, ih]; rfl

/-- From each command of a stream on, the decoder finds that command (rules R30, R80). -/
theorem decode_drop_flatMap_encode {is : List Instr} (his : ∀ i ∈ is, i.WellFormed = true) (rest : List Word) {n : Nat} {i : Instr}
    (hn : is[n]? = some i) :
    decode ((is.drop n).flatMap encode ++ rest) = .command i ((is.drop (n + 1)).flatMap encode ++ rest) := by
  obtain ⟨hlt, rfl⟩ := List.getElem?_eq_some_iff.mp hn
  rw [List.drop_eq_getElem_cons hlt, List.flatMap_cons, List.append_assoc, decode_encode (his _ (List.getElem_mem hlt))]

/-- Settles O10: the commands and the words form by form, and the decoding by the encoder's law. -/
theorem assembledLinesDecode : Obligations.AssembledLinesDecode := by
  refine ⟨fun w ws h => (asmWords_word_eq_ok_iff.mp h).2.symm, fun l ws rest hl h => ?_⟩
  obtain ⟨hrange, rfl⟩ := (asmWords_eq_ok_iff hl).mp h
  have hwf := commands_wellFormed hrange
  refine ⟨l.commands, ?commands, ?words, (asmCommands_eq_ok_iff hl).mpr ⟨hrange, rfl⟩, rfl, hwf,
    fun n i hn => decode_drop_flatMap_encode hwf rest hn⟩
  case commands => cases l <;> rfl
  case words =>
    cases l with
    | word w => exact absurd rfl (hl w)
    | sha1Init | sha1Update | sha1Final | sha1 | sha1Empty => rfl
    | hmac msgPtr msgLen keyPtr klen dstPtr =>
      obtain ⟨-, -, -, hklen, -⟩ := hrange
      exact congrArg (· :: _) (headerWord_ofNat 4 hklen (Nat.zero_le 255))
    | hmacv frags keyPtr klen dstPtr =>
      obtain ⟨hlen, -, -, hklen, -⟩ := hrange
      have hheader := headerWord_ofNat 5 hklen hlen
      rw [AsmLine.commands, List.flatMap_singleton, encode, List.length_map, encodeFragments_map_asmFragment]
      exact congrArg (· :: _) hheader
    | auth bufPtr size cap keyPtr =>
      obtain ⟨-, hsize, hcap, -⟩ := hrange
      exact congrArg (· :: _) (headerWord_ofNat 6 hsize hcap)
    | verify bufPtr size keyPtr =>
      obtain ⟨-, hsize, -⟩ := hrange
      exact congrArg (· :: _) (headerWord_ofNat 7 hsize (Nat.zero_le 255))

end Sys2Proof.Machine
end

section
/-! PROOFS. The rounds of a compression (rules R126 to R129). -/

namespace Sys2Proof.Machine

/-- Settles O31, stage by stage. -/
theorem stageFunctionsAndConstants : Obligations.StageFunctionsAndConstants := by
  intro t b c d
  unfold stageFunction stageConstant
  refine ⟨fun h => ⟨if_pos h, if_pos h⟩, fun h1 h2 => ?_, fun h1 h2 => ?_, fun h1 _ => ?_⟩
  · rw [if_neg (by omega), if_pos h2, if_neg (by omega), if_pos h2]
    exact ⟨rfl, rfl⟩
  · rw [if_neg (by omega), if_neg (by omega), if_pos h2, if_neg (by omega), if_neg (by omega), if_pos h2]
    exact ⟨rfl, rfl⟩
  · rw [if_neg (by omega), if_neg (by omega), if_neg (by omega), if_neg (by omega), if_neg (by omega), if_neg (by omega)]
    exact ⟨rfl, rfl⟩

theorem rotl_eq_rotateLeft {k : Nat} (hk : k < 32) (x : Word) : rotl k x = x.rotateLeft k := by
  rw [rotl, BitVec.rotateLeft_def, Nat.mod_eq_of_lt hk]

theorem hashRounds_eq_foldl (ws : List Word) (t : Nat) (r : Working) :
    hashRounds t ws r = (List.range ws.length).foldl (fun r k => hashRound (t + k) (ws.getD k 0) r) r := by
  induction ws generalizing t r with
  | nil => rfl
  | cons w ws ih =>
    rw [hashRounds, ih, List.length_cons, List.range_succ_eq_map, List.foldl_cons, List.foldl_map]
    simp only [Nat.add_zero, List.getD_cons_zero, List.getD_cons_succ, Nat.succ_eq_add_one, Nat.add_assoc, Nat.add_comm 1]

/-- Settles O32: a round by its definition, and the 80 rounds as a fold over the schedule. -/
theorem compressIsEightyRounds : Obligations.CompressIsEightyRounds := by
  refine ⟨fun t w a b c d e => ?_, fun h b r hr => ?_⟩
  · rw [← rotl_eq_rotateLeft (by decide), ← rotl_eq_rotateLeft (by decide), hashRound]
  · rw [compress_eq, hashRounds_eq_foldl, schedule_length, hr]
    simp only [Nat.zero_add]
    rfl

end Sys2Proof.Machine
end

section
/-! PROOFS. The block of a context: how it fills, and the block or two blocks that end a message (rules R23, R24, R122, R123). -/

namespace Sys2Proof.Machine

/-! ### The final block or two blocks -/

theorem blockByte_padStart (c : Ctx) (i : Nat) : blockByte (padStart c) i = if i = c.idx.val then 0x80 else blockByte c.blk i :=
  blockByte_set _ _ _ _ _

/-- The block with the byte `0x80` at `IDX` and zeros behind it. -/
def paddedBlock (c : Ctx) : Block := zeroBlock (padStart c) (c.idx.val + 1) 64

theorem blockByte_paddedBlock (c : Ctx) {i : Nat} (hi : i < 64) :
    blockByte (paddedBlock c) i = if i < c.idx.val then blockByte c.blk i else if i = c.idx.val then 0x80 else 0 := by
  rw [paddedBlock, blockByte_zeroBlock, blockByte_padStart]
  obtain hlt | heq | hgt := Nat.lt_trichotomy i c.idx.val
  · rw [if_neg (by omega), if_neg (by omega), if_pos hlt]
  · rw [if_neg (by omega), if_pos heq, if_neg (by omega), if_pos heq]
  · rw [if_pos (by omega), if_neg (by omega), if_neg (by omega)]

@[simp] theorem blockByte_replicate_zero (i : Nat) : blockByte (Vector.replicate 64 0) i = 0 := blockByte_ctxInit i

/-- The length overwrites the last 8 bytes, so only the 56 before them matter. -/
theorem storeLength_congr {b b' : Block} (hi lo : Word) (h : ∀ i, i < 56 → blockByte b i = blockByte b' i) :
    storeLength b hi lo = storeLength b' hi lo := by
  refine block_eq_of_blockByte fun i hi64 => ?_
  rw [blockByte_storeLength _ _ _ hi64, blockByte_storeLength _ _ _ hi64]
  by_cases hi56 : i < 56
  · rw [if_pos hi56, if_pos hi56, h i hi56]
  · rw [if_neg hi56, if_neg hi56]

theorem blockByte_storeLength_hi (b : Block) (hi lo : Word) {j : Nat} (hj : j < 4) :
    blockByte (storeLength b hi lo) (56 + j) = hi.extractLsb' (24 - 8 * j) 8 := by
  rw [blockByte_storeLength _ _ _ (by omega), if_neg (by omega), if_pos (by omega), Nat.add_sub_cancel_left, bytesBe32_getD _ hj]

theorem blockByte_storeLength_lo (b : Block) (hi lo : Word) {j : Nat} (hj : j < 4) :
    blockByte (storeLength b hi lo) (60 + j) = lo.extractLsb' (24 - 8 * j) 8 := by
  rw [blockByte_storeLength _ _ _ (by omega), if_neg (by omega), if_neg (by omega), Nat.add_sub_cancel_left, bytesBe32_getD _ hj]

theorem finalWords_of_le {c : Ctx} (hidx : c.idx.val ≤ 55) :
    finalWords c = compress c.h (storeLength (paddedBlock c) c.lenHi c.lenLo) := by
  have hblock : ∀ i, i < 56 →
      blockByte (zeroBlock (padStart c) (c.idx.val + 1) 56) i = blockByte (paddedBlock c) i := fun i hi => by
    have hends : (c.idx.val + 1 ≤ i ∧ i < 56 ∧ i < 64) = (c.idx.val + 1 ≤ i ∧ i < 64 ∧ i < 64) := propext (by omega)
    rw [paddedBlock, blockByte_zeroBlock, blockByte_zeroBlock]
    simp only [hends]
  rw [finalWords, if_neg (by omega), storeLength_congr _ _ hblock]

theorem finalWords_of_ge {c : Ctx} (hidx : 56 ≤ c.idx.val) :
    finalWords c = compress (compress c.h (paddedBlock c)) (storeLength (Vector.replicate 64 0) c.lenHi c.lenLo) := by
  have hblock : ∀ i, i < 56 →
      blockByte (zeroBlock (paddedBlock c) 0 56) i = blockByte (Vector.replicate 64 0) i := fun i hi => by
    rw [blockByte_zeroBlock, if_pos (by omega), blockByte_replicate_zero]
  rw [finalWords, if_pos (by omega), ← paddedBlock, storeLength_congr _ _ hblock]

/-- Settles O59: the padded block takes the length where it fits, and a second block of zeros takes it otherwise. -/
theorem paddingOfAContext : Obligations.PaddingOfAContext := by
  intro c
  have hbytes : ∀ i, i < c.idx.val → blockByte (paddedBlock c) i = blockByte c.blk i := fun i hi => by
    rw [blockByte_paddedBlock c (by omega), if_pos hi]
  have hmark : blockByte (paddedBlock c) c.idx.val = 0x80 := by
    rw [blockByte_paddedBlock c c.idx.isLt, if_neg (by omega), if_pos rfl]
  have hzero : ∀ i, c.idx.val < i → i < 64 → blockByte (paddedBlock c) i = 0 := fun i hi h64 => by
    rw [blockByte_paddedBlock c h64, if_neg (by omega), if_neg (by omega)]
  have hfirst : ∀ (b : Block) (i : Nat), i < 56 → blockByte (storeLength b c.lenHi c.lenLo) i = blockByte b i := fun b i hi => by
    rw [blockByte_storeLength _ _ _ (by omega), if_pos hi]
  refine ⟨fun hidx => ⟨_, finalWords_of_le hidx, fun i hi => ?_, ?_, fun i hi h56 => ?_, fun j hj => ?_⟩,
    fun hidx => ⟨_, _, finalWords_of_ge hidx, hbytes, hmark, hzero, fun i hi => ?_, fun j hj => ?_⟩, ctxDigest_length c, fun j hj => ?_⟩
  · rw [hfirst _ i (by omega), hbytes i hi]
  · rw [hfirst _ _ (by omega), hmark]
  · rw [hfirst _ i h56, hzero i hi (by omega)]
  · exact ⟨blockByte_storeLength_hi _ _ _ hj, blockByte_storeLength_lo _ _ _ hj⟩
  · rw [hfirst _ i hi, blockByte_replicate_zero]
  · exact ⟨blockByte_storeLength_hi _ _ _ hj, blockByte_storeLength_lo _ _ _ hj⟩
  · rw [ctxDigest_eq]
    exact serialize_getD (finalWords c) hj

/-! ### The block bytes from `IDX` on -/

/-- The contexts agree in all but the block bytes from `IDX` on (rule R23). -/
structure SameBelowIdx (c c' : Ctx) : Prop where
  h : c'.h = c.h
  lenLo : c'.lenLo = c.lenLo
  lenHi : c'.lenHi = c.lenHi
  idx : c'.idx = c.idx
  blk : ∀ i, i < c.idx.val → blockByte c'.blk i = blockByte c.blk i

theorem blockByte_absorbByte (c : Ctx) (x : Byte) (i : Nat) :
    blockByte (absorbByte c x).blk i = if i = c.idx.val then x else blockByte c.blk i := by
  rw [absorbByte_blk, blockByte_set]

theorem absorbByte_h_of_lt {c : Ctx} (x : Byte) (hidx : c.idx.val < 63) : (absorbByte c x).h = c.h := by
  rw [absorbByte_h, if_pos (by omega)]

theorem absorbByte_h_of_full {c : Ctx} (x : Byte) (hidx : c.idx.val = 63) :
    (absorbByte c x).h = compress c.h (absorbByte c x).blk := by
  rw [absorbByte_h, if_neg (by omega), absorbByte_blk]

theorem SameBelowIdx.absorbByte {c c' : Ctx} (h : SameBelowIdx c c') (x : Byte) :
    SameBelowIdx (absorbByte c x) (absorbByte c' x) := by
  have hidx : c'.idx.val = c.idx.val := congrArg Fin.val h.idx
  have hblk : ∀ i, i ≤ c.idx.val → blockByte (Machine.absorbByte c' x).blk i = blockByte (Machine.absorbByte c x).blk i := by
    intro i hi
    rw [blockByte_absorbByte, blockByte_absorbByte, hidx]
    split
    · rfl
    · exact h.blk i (by omega)
  have hnext := absorbByte_idx c x
  refine ⟨?_, by rw [absorbByte_lenLo, absorbByte_lenLo, h.lenLo],
    by rw [absorbByte_lenHi, absorbByte_lenHi, h.lenLo, h.lenHi],
    Fin.ext (by rw [absorbByte_idx, absorbByte_idx, hidx]), fun i hi => hblk i (by omega)⟩
  obtain hlt | hfull : c.idx.val < 63 ∨ c.idx.val = 63 := by omega
  · rw [absorbByte_h_of_lt x hlt, absorbByte_h_of_lt x (by omega), h.h]
  · rw [absorbByte_h_of_full x hfull, absorbByte_h_of_full x (by omega), h.h, block_eq_of_blockByte fun i hi => hblk i (by omega)]

theorem SameBelowIdx.ctxUpdate {c c' : Ctx} (h : SameBelowIdx c c') (m : List Byte) :
    SameBelowIdx (ctxUpdate c m) (ctxUpdate c' m) := by
  induction m generalizing c c' with
  | nil => exact h
  | cons x m ih => exact ih (h.absorbByte x)

/-- The padding overwrites the bytes from `IDX` on before they are compressed. -/
theorem SameBelowIdx.ctxDigest_eq {c c' : Ctx} (h : SameBelowIdx c c') : ctxDigest c' = ctxDigest c := by
  have hpad : paddedBlock c' = paddedBlock c := by
    refine block_eq_of_blockByte fun i hi => ?_
    rw [blockByte_paddedBlock c' hi, blockByte_paddedBlock c hi, h.idx]
    split
    · exact h.blk i ‹_›
    · rfl
  have hidx : c'.idx.val = c.idx.val := congrArg Fin.val h.idx
  rw [Machine.ctxDigest_eq, Machine.ctxDigest_eq]
  obtain hle | hge : c.idx.val ≤ 55 ∨ 56 ≤ c.idx.val := by omega
  · rw [finalWords_of_le hle, finalWords_of_le (hidx ▸ hle), hpad, h.h, h.lenHi, h.lenLo]
  · rw [finalWords_of_ge hge, finalWords_of_ge (hidx ▸ hge), hpad, h.h, h.lenHi, h.lenLo]

/-- Settles O26: absorbing keeps the agreement, and the padding hides the bytes that differ. -/
theorem staleBlockBytesUnobservable : Obligations.StaleBlockBytesUnobservable :=
  fun _ _ m hh hlo hhi hidx hblk => (SameBelowIdx.ctxUpdate ⟨hh, hlo, hhi, hidx, hblk⟩ m).ctxDigest_eq

end Sys2Proof.Machine
end

section
/-! PROOFS. The streaming engine and the closed form (rules R24, R122, R123, R137): after a message the hash words are the fold over its
full blocks and the block holds the bytes left, and the final blocks are the last blocks of the padded message. -/

namespace Sys2Proof.Machine

/-! ### The blocks of a byte sequence -/

theorem blockByte_messageBlock (s : List Byte) (k : Nat) {i : Nat} (hi : i < 64) :
    blockByte (messageBlock s k) i = s.getD (64 * k + i) 0 := by
  rw [messageBlock, blockByte_storeBlock, blockByte_replicate_zero, List.length_take, List.length_drop]
  simp only [List.getD_eq_getElem?_getD, Nat.sub_zero, List.getElem?_take, List.getElem?_drop, if_pos hi]
  split
  · rfl
  · rw [List.getElem?_eq_none (by omega)]
    rfl

theorem foldBlocks_zero (s : List Byte) : foldBlocks s 0 = initialWords := rfl

theorem foldBlocks_succ (s : List Byte) (n : Nat) : foldBlocks s (n + 1) = compress (foldBlocks s n) (messageBlock s n) := by
  rw [foldBlocks, List.range_succ, List.foldl_append]
  rfl

theorem foldBlocks_congr {s s' : List Byte} {n : Nat} (h : ∀ i, i < 64 * n → s.getD i 0 = s'.getD i 0) :
    foldBlocks s n = foldBlocks s' n := by
  induction n with
  | zero => rw [foldBlocks_zero, foldBlocks_zero]
  | succ n ih =>
    have hblock : messageBlock s n = messageBlock s' n := block_eq_of_blockByte fun i hi => by
      rw [blockByte_messageBlock s n hi, blockByte_messageBlock s' n hi, h _ (by omega)]
    rw [foldBlocks_succ, foldBlocks_succ, ih fun i hi => h i (by omega), hblock]

theorem getD_append_of_lt {m : List Byte} (n : List Byte) {i : Nat} (hi : i < m.length) : (m ++ n).getD i 0 = m.getD i 0 :=
  List.getD_append m n 0 i hi

/-! ### The context after a message -/

theorem ctxUpdate_idx (c : Ctx) (m : List Byte) : (ctxUpdate c m).idx.val = (c.idx.val + m.length) % 64 := by
  induction m generalizing c with
  | nil => exact (Nat.mod_eq_of_lt c.idx.isLt).symm
  | cons x m ih =>
    rw [ctxUpdate_cons, ih, absorbByte_idx, List.length_cons]
    omega

theorem ctxUpdate_ctxInit_idx (m : List Byte) : (ctxUpdate ctxInit m).idx.val = m.length % 64 := by
  rw [ctxUpdate_idx, show ctxInit.idx.val = 0 from rfl, Nat.zero_add]

theorem ctxUpdate_ctxInit_blk (m : List Byte) {i : Nat} (hi : i < m.length % 64) :
    blockByte (ctxUpdate ctxInit m).blk i = m.getD (64 * (m.length / 64) + i) 0 := by
  induction m using List.reverseRecOn with
  | nil => exact absurd hi (Nat.not_lt_zero i)
  | append_singleton m x ih =>
    rw [List.length_append, List.length_singleton] at hi ⊢
    rw [ctxUpdate_append, ctxUpdate_singleton, blockByte_absorbByte, ctxUpdate_ctxInit_idx,
      show (m.length + 1) / 64 = m.length / 64 by omega]
    by_cases hlast : i = m.length % 64
    · rw [if_pos hlast, show 64 * (m.length / 64) + i = m.length by omega, List.getD_append_right m [x] 0 _ (Nat.le_refl _), Nat.sub_self]
      rfl
    · rw [if_neg hlast, ih (by omega), getD_append_of_lt [x] (by omega)]

theorem ctxUpdate_ctxInit_h (m : List Byte) : (ctxUpdate ctxInit m).h = foldBlocks m (m.length / 64) := by
  induction m using List.reverseRecOn with
  | nil => rfl
  | append_singleton m x ih =>
    have hidx := ctxUpdate_ctxInit_idx m
    have hblocks : foldBlocks m (m.length / 64) = foldBlocks (m ++ [x]) (m.length / 64) :=
      foldBlocks_congr fun i hi => (getD_append_of_lt [x] (by omega)).symm
    rw [List.length_append, List.length_singleton, ctxUpdate_append, ctxUpdate_singleton]
    obtain hlt | hfull : m.length % 64 < 63 ∨ m.length % 64 = 63 := by omega
    · rw [absorbByte_h_of_lt x (by omega), ih, hblocks, show (m.length + 1) / 64 = m.length / 64 by omega]
    · have hblock : (absorbByte (ctxUpdate ctxInit m) x).blk = messageBlock (m ++ [x]) (m.length / 64) := by
        refine block_eq_of_blockByte fun i hi => ?_
        rw [blockByte_messageBlock _ _ hi, blockByte_absorbByte, hidx]
        by_cases hlast : i = m.length % 64
        · rw [if_pos hlast, show 64 * (m.length / 64) + i = m.length by omega,
            List.getD_append_right m [x] 0 _ (Nat.le_refl _), Nat.sub_self]
          rfl
        · rw [if_neg hlast, ctxUpdate_ctxInit_blk m (by omega), getD_append_of_lt [x] (by omega)]
      rw [absorbByte_h_of_full x (by omega), ih, hblocks, hblock, show (m.length + 1) / 64 = m.length / 64 + 1 by omega, foldBlocks_succ]

/-- Settles O34: one byte by the rules of `absorbByte`, and a message by induction from its end. -/
theorem fillIndexAdvances : Obligations.FillIndexAdvances := by
  refine ⟨ctxUpdate_idx, fun c x => ?_, fun m i hi => ctxUpdate_ctxInit_blk m hi, ctxUpdate_ctxInit_h⟩
  have hnext := absorbByte_idx c x
  rw [ctxUpdate_singleton]
  refine ⟨?_, fun i hi => ?_, fun hlt => ⟨absorbByte_h_of_lt x hlt, by omega⟩,
    fun hfull => ⟨absorbByte_h_of_full x hfull, by omega⟩⟩
  · rw [blockByte_absorbByte, if_pos rfl]
  · rw [blockByte_absorbByte, if_neg hi]

/-! ### The padded message -/

/-- The two words of the bit length of a message (rule R137). -/
theorem bitLength_words {m : List Byte} (hm : m.length < 2 ^ 61) :
    (ctxUpdate ctxInit m).lenHi = BitVec.ofNat 32 (8 * m.length / 2 ^ 32) ∧
      (ctxUpdate ctxInit m).lenLo = BitVec.ofNat 32 (8 * m.length) := by
  have hzero : bitLength ctxInit = 0 := rfl
  have hlen := bitLength_ctxUpdate (c := ctxInit) (m := m) (by rw [hzero]) (by omega)
  have hlo := (ctxUpdate ctxInit m).lenLo.isLt
  rw [hzero, bitLength] at hlen
  constructor
  all_goals
    apply BitVec.eq_of_toNat_eq
    rw [BitVec.toNat_ofNat]
    omega

theorem paddedMessage_length (m : List Byte) :
    (paddedMessage m).length = m.length + 9 + (64 - (m.length + 9) % 64) % 64 := by
  simp only [paddedMessage, List.length_append, List.length_replicate, bytesBe32_length, List.length_singleton]
  omega

/-- The padded message as the message and what is put behind it. -/
theorem paddedMessage_eq (m : List Byte) :
    paddedMessage m = m ++ (0x80 :: (List.replicate ((64 - (m.length + 9) % 64) % 64) 0 ++
      (bytesBe32 (BitVec.ofNat 32 (8 * m.length / 2 ^ 32)) ++ bytesBe32 (BitVec.ofNat 32 (8 * m.length))))) := by
  simp only [paddedMessage, List.append_assoc, List.cons_append, List.nil_append]

theorem paddedMessage_getD_of_lt {m : List Byte} {i : Nat} (hi : i < m.length) : (paddedMessage m).getD i 0 = m.getD i 0 := by
  rw [paddedMessage_eq, getD_append_of_lt _ hi]

theorem paddedMessage_getD_length (m : List Byte) : (paddedMessage m).getD m.length 0 = 0x80 := by
  rw [paddedMessage_eq, List.getD_append_right _ _ _ _ (Nat.le_refl _), Nat.sub_self, List.getD_cons_zero]

/-- What stands behind the byte `0x80` of the padded message. -/
theorem paddedMessage_getD_behind (m : List Byte) (i : Nat) : (paddedMessage m).getD (m.length + 1 + i) 0 =
    (List.replicate ((64 - (m.length + 9) % 64) % 64) 0 ++ (bytesBe32 (BitVec.ofNat 32 (8 * m.length / 2 ^ 32)) ++
      bytesBe32 (BitVec.ofNat 32 (8 * m.length)))).getD i 0 := by
  rw [paddedMessage_eq, List.getD_append_right _ _ _ _ (by omega), show m.length + 1 + i - m.length = i + 1 by omega,
    List.getD_cons_succ]

theorem paddedMessage_getD_zero {m : List Byte} {i : Nat} (hm : m.length < i) (hi : i + 8 < (paddedMessage m).length) :
    (paddedMessage m).getD i 0 = 0 := by
  rw [paddedMessage_length] at hi
  obtain ⟨k, rfl⟩ : ∃ k, i = m.length + 1 + k := ⟨i - m.length - 1, by omega⟩
  rw [paddedMessage_getD_behind, List.getD_append _ _ _ _ (by rw [List.length_replicate]; omega), List.getD_replicate _ (by omega)]

theorem paddedMessage_getD_hi {m : List Byte} {j : Nat} (hj : j < 4) :
    (paddedMessage m).getD ((paddedMessage m).length - 8 + j) 0 = (BitVec.ofNat 32 (8 * m.length / 2 ^ 32)).extractLsb' (24 - 8 * j) 8 := by
  rw [paddedMessage_length, show m.length + 9 + (64 - (m.length + 9) % 64) % 64 - 8 + j =
    m.length + 1 + ((64 - (m.length + 9) % 64) % 64 + j) by omega, paddedMessage_getD_behind,
    List.getD_append_right _ _ _ _ (by rw [List.length_replicate]; omega), List.length_replicate, Nat.add_sub_cancel_left,
    List.getD_append _ _ _ _ (by rw [bytesBe32_length]; exact hj), bytesBe32_getD _ hj]

theorem paddedMessage_getD_lo {m : List Byte} {j : Nat} (hj : j < 4) :
    (paddedMessage m).getD ((paddedMessage m).length - 4 + j) 0 = (BitVec.ofNat 32 (8 * m.length)).extractLsb' (24 - 8 * j) 8 := by
  rw [paddedMessage_length, show m.length + 9 + (64 - (m.length + 9) % 64) % 64 - 4 + j =
    m.length + 1 + ((64 - (m.length + 9) % 64) % 64 + (4 + j)) by omega, paddedMessage_getD_behind,
    List.getD_append_right _ _ _ _ (by rw [List.length_replicate]; omega), List.length_replicate, Nat.add_sub_cancel_left,
    List.getD_append_right _ _ _ _ (by rw [bytesBe32_length]; omega), bytesBe32_length, Nat.add_sub_cancel_left, bytesBe32_getD _ hj]

/-! ### The closed form -/

theorem blockByte_paddedBlock_eq_messageBlock {m : List Byte} {i : Nat} (hi : i < 64)
    (hend : 64 * (m.length / 64) + i < m.length + 1 ∨ 64 * (m.length / 64) + i + 8 < (paddedMessage m).length) :
    blockByte (paddedBlock (ctxUpdate ctxInit m)) i = blockByte (messageBlock (paddedMessage m) (m.length / 64)) i := by
  rw [blockByte_paddedBlock _ hi, blockByte_messageBlock _ _ hi, ctxUpdate_ctxInit_idx]
  obtain hlt | heq | hgt := Nat.lt_trichotomy i (m.length % 64)
  · rw [if_pos hlt, ctxUpdate_ctxInit_blk m hlt, paddedMessage_getD_of_lt (by omega)]
  · rw [if_neg (by omega), if_pos heq, show 64 * (m.length / 64) + i = m.length by omega, paddedMessage_getD_length]
  · rw [if_neg (by omega), if_neg (by omega), paddedMessage_getD_zero (by omega) (by omega)]

/-- The block that carries the length is the last block of the padded message, if its first 56 bytes are. -/
theorem storeLength_eq_messageBlock {m : List Byte} (hm : m.length < 2 ^ 61) {b : Block} {k : Nat}
    (hlast : (paddedMessage m).length = 64 * k + 64)
    (hb : ∀ i, i < 56 → blockByte b i = blockByte (messageBlock (paddedMessage m) k) i) :
    storeLength b (ctxUpdate ctxInit m).lenHi (ctxUpdate ctxInit m).lenLo = messageBlock (paddedMessage m) k := by
  obtain ⟨hhi, hlo⟩ := bitLength_words hm
  refine block_eq_of_blockByte fun i hi => ?_
  obtain h56 | ⟨j, hj, rfl⟩ | ⟨j, hj, rfl⟩ : i < 56 ∨ (∃ j, j < 4 ∧ i = 56 + j) ∨ ∃ j, j < 4 ∧ i = 60 + j := by
    by_cases h56 : i < 56
    · exact .inl h56
    · by_cases h60 : i < 60
      · exact .inr (.inl ⟨i - 56, by omega, by omega⟩)
      · exact .inr (.inr ⟨i - 60, by omega, by omega⟩)
  · rw [blockByte_storeLength _ _ _ hi, if_pos h56, hb i h56]
  · rw [blockByte_storeLength_hi _ _ _ hj, hhi, ← paddedMessage_getD_hi hj, blockByte_messageBlock _ _ hi]
    congr 1; omega
  · rw [blockByte_storeLength_lo _ _ _ hj, hlo, ← paddedMessage_getD_lo hj, blockByte_messageBlock _ _ hi]
    congr 1; omega

/-- The blocks `ctx_final` compresses are the last one or two of the padded message (rules R123, R137). -/
theorem finalWords_ctxUpdate_ctxInit {m : List Byte} (hm : m.length < 2 ^ 61) :
    finalWords (ctxUpdate ctxInit m) = foldBlocks (paddedMessage m) ((paddedMessage m).length / 64) := by
  have hlen := paddedMessage_length m
  have hidx := ctxUpdate_ctxInit_idx m
  have hfull : (ctxUpdate ctxInit m).h = foldBlocks (paddedMessage m) (m.length / 64) :=
    (ctxUpdate_ctxInit_h m).trans (foldBlocks_congr fun i hi => (paddedMessage_getD_of_lt (by omega)).symm)
  obtain hone | htwo : m.length % 64 ≤ 55 ∨ 56 ≤ m.length % 64 := by omega
  · have hlast := storeLength_eq_messageBlock hm (k := m.length / 64) (by omega)
      fun i hi => blockByte_paddedBlock_eq_messageBlock (by omega) (by omega)
    rw [finalWords_of_le (by omega), hlast, hfull, ← foldBlocks_succ]
    congr 1; omega
  · have hfirst : paddedBlock (ctxUpdate ctxInit m) = messageBlock (paddedMessage m) (m.length / 64) :=
      block_eq_of_blockByte fun i hi => blockByte_paddedBlock_eq_messageBlock hi (by omega)
    have hzero : ∀ i, i < 56 → blockByte (Vector.replicate 64 0) i = blockByte (messageBlock (paddedMessage m) (m.length / 64 + 1)) i :=
      fun i hi => by
        rw [blockByte_replicate_zero, blockByte_messageBlock _ _ (by omega), paddedMessage_getD_zero (by omega) (by omega)]
    have hlast := storeLength_eq_messageBlock hm (by omega) hzero
    rw [finalWords_of_ge (by omega), hlast, hfirst, hfull, ← foldBlocks_succ, ← foldBlocks_succ]
    congr 1; omega

theorem sha1_eq_serialize {m : List Byte} (hm : m.length < 2 ^ 61) :
    sha1 m = serialize (foldBlocks (paddedMessage m) ((paddedMessage m).length / 64)) := by
  rw [sha1, ctxDigest_eq, finalWords_ctxUpdate_ctxInit hm]

/-- Byte `j` of a word, most significant byte first, as a number. -/
theorem extractLsb'_ofNat_toNat (n : Nat) {j : Nat} (hj : j < 4) :
    ((BitVec.ofNat 32 n).extractLsb' (24 - 8 * j) 8).toNat = n / 2 ^ (8 * (3 - j)) % 2 ^ 8 := by
  rw [BitVec.extractLsb'_toNat, BitVec.toNat_ofNat, Nat.shiftRight_eq_div_pow]
  obtain rfl | rfl | rfl | rfl : j = 0 ∨ j = 1 ∨ j = 2 ∨ j = 3 := by omega
  all_goals omega

/-- Byte `j` of the 64-bit length, from the two words that carry it (rule R61 b). -/
theorem paddedMessage_getD_length_byte {m : List Byte} {j : Nat} (hj : j < 8) :
    ((paddedMessage m).getD ((paddedMessage m).length - 8 + j) 0).toNat = 8 * m.length / 2 ^ (8 * (7 - j)) % 2 ^ 8 := by
  have hlen := paddedMessage_length m
  by_cases hhi : j < 4
  · rw [paddedMessage_getD_hi hhi, extractLsb'_ofNat_toNat _ hhi, Nat.div_div_eq_div_mul, ← Nat.pow_add]
    congr 3; omega
  · obtain ⟨k, rfl⟩ : ∃ k, j = 4 + k := ⟨j - 4, by omega⟩
    have hk : k < 4 := by omega
    rw [show (paddedMessage m).length - 8 + (4 + k) = (paddedMessage m).length - 4 + k by omega, paddedMessage_getD_lo hk,
      extractLsb'_ofNat_toNat _ hk]
    congr 4; omega

/-- Settles O36: the last blocks of the padded message are those of `ctx_final`, and its bytes are read off its parts. -/
theorem streamingEqualsClosedForm : Obligations.StreamingEqualsClosedForm := by
  intro m hm
  have hlen := paddedMessage_length m
  have hsha := sha1_eq_serialize hm
  refine ⟨hsha, paddedMessage m, foldBlocks (paddedMessage m) ((paddedMessage m).length / 64), by omega, by omega, by omega,
    fun i hi => paddedMessage_getD_of_lt hi, paddedMessage_getD_length m, fun i hi h8 => paddedMessage_getD_zero hi (by omega),
    fun j hj => paddedMessage_getD_length_byte hj, rfl, fun k i hi => blockByte_messageBlock _ k hi, sha1_length m, fun j hj => ?_⟩
  rw [hsha]
  exact serialize_getD _ hj

end Sys2Proof.Machine
end

section
/-! PROOFS. The outcome of each command: the hash commands and their sequence (rules R130 to R132, R137), HMAC and HMACV (rules R164 to
R168), AUTH and VERIFY (rules R181 to R189), and when a memory fault or an overflow is answered (rules R207, R208, R210). -/

namespace Sys2Proof.Machine

/-! ### The bytes a command stores -/

theorem Memory.sameOutside_writeBytes_of_length (m : Memory) (p : Nat) {n : Nat} {bs : List Byte} (hn : bs.length = n) :
    SameOutside m (m.writeBytes p bs) p n := hn ▸ Memory.sameOutside_writeBytes m p bs

/-- The answer of a command that completes with a small value is that value (rule R89). -/
theorem responseWord_ok_ofNat {n : Nat} (hn : n < 256) : responseWord .ok (BitVec.ofNat 8 n) = BitVec.ofNat 32 n := by
  apply BitVec.eq_of_toNat_eq
  rw [responseWord_toNat, BitVec.toNat_ofNat, BitVec.toNat_ofNat, statusCode]
  omega

/-- A failure is never answered by a word below 256 (rules R89, R200). -/
theorem responseWord_ne_ofNat {f : Status} (hf : f ≠ .ok) {n : Nat} (hn : n < 256) : responseWord f 0 ≠ BitVec.ofNat 32 n := by
  rw [← responseWord_ok_ofNat hn]
  exact fun h => hf (status_eq_of_append_response_eq (q := []) (congrArg ([] ++ [·]) h))

theorem fails_ne_ok {s : State} {i : Instr} {f : Status} (h : Fails s i f) : f ≠ .ok := by
  cases h <;> decide

/-- A command that answers a word below 256 completes. -/
theorem completes_of_answer {s t : State} {i : Instr} {n : Nat} (h : exec i s = .next t) (hn : n < 256)
    (ht : t.rspq = s.rspq ++ [BitVec.ofNat 32 n]) : Completes s i t := by
  obtain ⟨f, hf, rfl⟩ | hc := exec_cases h
  · exact absurd (List.singleton_inj.mp (List.append_cancel_left ht)) (responseWord_ne_ofNat (fails_ne_ok hf) hn)
  · exact hc

/-! ### The hash commands -/

/-- Settles O38, by definition. -/
theorem sha1InitCompletes : Obligations.Sha1InitCompletes := fun _ => rfl

/-- Settles O39: the three failures, and the completion. -/
theorem sha1UpdateOutcome : Obligations.Sha1UpdateOutcome := fun _ _ _ =>
  ⟨fun hphase => exec_of_fails (.updateIdle hphase), fun hphase hsrc => exec_of_fails (.updateFault hphase hsrc),
    fun hphase hsrc hlen => exec_of_fails (.updateOverflow hphase hsrc hlen),
    fun hphase hsrc hlen => exec_of_completes (.update hphase hsrc hlen)⟩

/-- Byte `i` of a digest that is stored at `p`. -/
theorem read_stored_digest (m : Memory) (p : Nat) (c : Ctx) {i : Nat} (hi : i < 20) :
    (m.writeBytes p (ctxDigest c)).read (p + i) = (serialize (finalWords c)).getD i 0 := by
  rw [Memory.read_writeBytes_add m p _ (by rwa [ctxDigest_length]), ctxDigest_eq]

/-- Settles O40: the two failures, and the digest at the destination byte by byte. -/
theorem sha1FinalOutcome : Obligations.Sha1FinalOutcome := by
  intro s dstPtr
  refine ⟨fun hphase => exec_of_fails (.finalIdle hphase), fun hphase hdst => exec_of_fails (.finalFault hphase hdst),
    fun hphase hdst => ⟨_, exec_of_completes (.final hphase hdst), Memory.readBytes_writeBytes (ctxDigest_length s.hs), fun j hj => ?_,
      Memory.sameOutside_writeBytes_of_length s.mem _ (ctxDigest_length s.hs), rfl, rfl, rfl, rfl, rfl, rfl, rfl⟩⟩
  obtain ⟨h0, h1, h2, h3, h4⟩ := serialize_getD (finalWords s.hs) hj
  simp only [State.respond_mem, State.setPhase_mem, State.setMem_mem, Nat.add_assoc]
  rw [read_stored_digest _ _ _ (by omega), read_stored_digest _ _ _ (by omega), read_stored_digest _ _ _ (by omega),
    read_stored_digest _ _ _ (by omega), read_stored_digest _ _ _ (by omega)]
  exact ⟨h0, h1, h2, h3, h4⟩

/-- One SHA1_UPDATE per fragment absorbs the fragments' bytes one after the other (rules R131, R136). -/
theorem execAll_updates {s : State} {frags : List Fragment} (hphase : s.phase = .active) (hfrags : fragmentsOk s frags = true)
    (h8 : bitLength s.hs % 8 = 0) (hlen : bitLength s.hs + 8 * (frags.map (readFragment s.mem)).flatten.length < 2 ^ 64)
    (is : List Instr) :
    execAll (frags.map (fun f => .sha1Update f.ptr f.len) ++ is) s =
      execAll is { s with
        hs := ctxUpdate s.hs (frags.map (readFragment s.mem)).flatten, rspq := s.rspq ++ List.replicate frags.length 0 } := by
  induction frags generalizing s with
  | nil =>
    rw [List.map_nil, List.map_nil, List.flatten_nil, ctxUpdate_nil, List.length_nil, List.replicate_zero, List.append_nil]
    rfl
  | cons f frags ih =>
    obtain ⟨hf, hfrags⟩ : readOk s f.ptr.toNat f.len.toNat = true ∧ fragmentsOk s frags = true := by
      simpa [fragmentsOk] using hfrags
    rw [List.map_cons, List.flatten_cons, List.length_append, readFragment, Memory.readBytes_length] at hlen
    have hcount : bitLength (ctxUpdate s.hs (readFragment s.mem f)) = bitLength s.hs + 8 * f.len.toNat := by
      rw [readFragment, bitLength_ctxUpdate h8 (by rw [Memory.readBytes_length]; omega), Memory.readBytes_length]
    have hexec := exec_of_completes (.update hphase hf (by omega))
    rw [List.map_cons, List.cons_append, execAll_cons hexec]
    refine (ih (s := (s.setHash (ctxUpdate s.hs (readFragment s.mem f))).respond .ok 0) hphase hfrags
      (by rw [State.respond_hs, State.setHash_hs, hcount]; omega)
      (by rw [State.respond_hs, State.setHash_hs, State.respond_mem, State.setHash_mem, hcount]; omega)).trans ?_
    rw [List.map_cons, List.flatten_cons, ctxUpdate_append, List.length_cons, List.replicate_succ, List.append_cons]
    rfl

/-- Settles O37: the fresh context absorbs the fragments, and its digest is stored. -/
theorem commandSequenceHashes : Obligations.CommandSequenceHashes := by
  intro s frags dstPtr hfrags hdst hlen
  have hinit : exec .sha1Init s = .next { s with hs := ctxInit, phase := .active, rspq := s.rspq ++ [0] } := sha1InitCompletes s
  have hzero : bitLength ctxInit = 0 := rfl
  have hbits : bitLength ctxInit + 8 * (frags.map (readFragment s.mem)).flatten.length < 2 ^ 64 := by rw [hzero]; omega
  have hupdates := execAll_updates (s := { s with hs := ctxInit, phase := .active, rspq := s.rspq ++ [0] }) rfl hfrags
    (by rw [hzero]) hbits [.sha1Final dstPtr]
  obtain ⟨-, -, hfinal⟩ := sha1FinalOutcome { s with
    hs := ctxUpdate ctxInit (frags.map (readFragment s.mem)).flatten, phase := .active,
    rspq := s.rspq ++ [0] ++ List.replicate frags.length 0 } dstPtr
  obtain ⟨t, hexec, hbytes, -, hframe, -, -, -, hphase, hrspq, -, -⟩ := hfinal rfl hdst
  have hzeros : s.rspq ++ [0] ++ List.replicate frags.length 0 ++ [0] = s.rspq ++ List.replicate (frags.length + 2) 0 := by
    rw [List.replicate_succ, List.replicate_succ', List.append_assoc, List.append_assoc, List.singleton_append]
  exact ⟨t, (execAll_cons hinit _).trans (hupdates.trans (execAll_cons hexec [])), hbytes, hframe, hrspq.trans hzeros, hphase⟩

/-! ### HMAC and HMACV -/

theorem foldl_ctxUpdate (c : Ctx) (frags : List (List Byte)) : frags.foldl ctxUpdate c = ctxUpdate c frags.flatten :=
  List.foldl_flatten.symm

theorem innerDigest_eq_sha1 (k : List Byte) (frags : List (List Byte)) :
    innerDigest k frags = sha1 (innerPad k ++ frags.flatten) := by
  rw [innerDigest, foldl_ctxUpdate, ← ctxUpdate_append, sha1]

theorem hmac_eq_sha1 (k : List Byte) (frags : List (List Byte)) :
    hmac k frags = sha1 (outerPad k ++ sha1 (innerPad k ++ frags.flatten)) := by
  rw [hmac, ← ctxUpdate_append, innerDigest_eq_sha1, ← sha1]

/-- Only the concatenation of the fragments matters (rule R164). -/
theorem hmac_congr (k : List Byte) {frags frags' : List (List Byte)} (h : frags.flatten = frags'.flatten) :
    hmac k frags = hmac k frags' := by
  rw [hmac_eq_sha1, hmac_eq_sha1, h]

/-- Settles O42: both hashes are folds over the bytes. -/
theorem fragmentsAsIfConcatenated : Obligations.FragmentsAsIfConcatenated :=
  fun k frags => ⟨hmac_congr k List.flatten_singleton.symm, hmac_eq_sha1 k frags⟩

/-- Settles O43, by definition. -/
theorem hmacIsOneFragmentHmacv : Obligations.HmacIsOneFragmentHmacv := fun _ _ _ _ _ _ => rfl

theorem readOk_of_len_zero (s : State) {f : Fragment} (hf : f.len = 0) : readOk s f.ptr.toNat f.len.toNat = true := by
  rw [hf]
  exact admitted_zero _ _

theorem readFragment_of_len_zero (m : Memory) {f : Fragment} (hf : f.len = 0) : readFragment m f = [] := by
  rw [readFragment, hf]
  exact Memory.readBytes_zero m _

theorem fragmentsOk_cons (s : State) (f : Fragment) (frags : List Fragment) :
    fragmentsOk s (f :: frags) = (readOk s f.ptr.toNat f.len.toNat && fragmentsOk s frags) := rfl

theorem fragmentsOk_filter (s : State) (frags : List Fragment) :
    fragmentsOk s (frags.filter (fun f => f.len ≠ 0)) = fragmentsOk s frags := by
  induction frags with
  | nil => rfl
  | cons f frags ih =>
    by_cases hf : f.len = 0
    · rw [List.filter_cons_of_neg (by simpa using hf), ih, fragmentsOk_cons, readOk_of_len_zero s hf, Bool.true_and]
    · rw [List.filter_cons_of_pos (by simpa using hf), fragmentsOk_cons, ih, fragmentsOk_cons]

theorem flatten_readFragments_filter (m : Memory) (frags : List Fragment) :
    ((frags.filter (fun f => f.len ≠ 0)).map (readFragment m)).flatten = (frags.map (readFragment m)).flatten := by
  induction frags with
  | nil => rfl
  | cons f frags ih =>
    by_cases hf : f.len = 0
    · rw [List.filter_cons_of_neg (by simpa using hf), ih, List.map_cons, List.flatten_cons, readFragment_of_len_zero m hf,
        List.nil_append]
    · rw [List.filter_cons_of_pos (by simpa using hf), List.map_cons, List.flatten_cons, ih, List.map_cons, List.flatten_cons]

/-- Settles O44: an empty fragment is admitted whatever its pointer, and adds no byte. -/
theorem emptyFragmentsContributeNothing : Obligations.EmptyFragmentsContributeNothing := by
  intro s klen keyPtr dstPtr frags
  have hdigest := fun k => hmac_congr k (flatten_readFragments_filter s.mem frags)
  show hmacCommand klen keyPtr dstPtr frags s = hmacCommand klen keyPtr dstPtr (frags.filter (fun f => f.len ≠ 0)) s
  rw [hmacCommand, hmacCommand, fragmentsOk_filter, hdigest]

/-- Settles O45: the 20 bytes of the HMAC are read back where they were written. -/
theorem hmacvCompletes : Obligations.HmacvCompletes := fun s _ _ _ _ hklen hkey hfrags hdst =>
  ⟨_, exec_of_completes (.hmacv hklen hkey hfrags hdst), Memory.readBytes_writeBytes (hmac_length _ _),
    Memory.sameOutside_writeBytes_of_length s.mem _ (hmac_length _ _), rfl⟩

/-- Settles O46, as O45 with the one range of the message. -/
theorem hmacCompletes : Obligations.HmacCompletes := fun s _ _ _ _ _ hklen hkey hmsg hdst =>
  ⟨_, exec_of_completes (.hmac hklen hkey hmsg hdst), Memory.readBytes_writeBytes (hmac_length _ _),
    Memory.sameOutside_writeBytes_of_length s.mem _ (hmac_length _ _), rfl⟩

/-! ### AUTH and VERIFY -/

/-- Settles O47: a tag is cut from the HMAC. -/
theorem tagIsTruncatedHmac : Obligations.TagIsTruncatedHmac :=
  fun k m => ⟨hmac_length k [m], tag_length k m, (hmac k [m]).drop 10, (List.take_append_drop 10 _).symm⟩

/-- Settles O48: a total size that fits a capacity is below 256. -/
theorem authCompletes : Obligations.AuthCompletes := by
  intro s size cap bufPtr keyPtr hcap hkey hbuf hdst
  have hlt := cap.isLt
  rw [← responseWord_ok_ofNat (by omega)]
  exact ⟨_, exec_of_completes (.auth hcap hkey hbuf hdst), Memory.readBytes_writeBytes (tag_length _ _),
    Memory.sameOutside_writeBytes_of_length s.mem _ (tag_length _ _), rfl⟩

/-- Settles O49: the comparison finds a difference exactly when the bytes differ. -/
theorem verifyAcceptsExactlyTheTag : Obligations.VerifyAcceptsExactlyTheTag := by
  intro s size bufPtr keyPtr n hsize hn hkey hbuf
  have hlt := size.isLt
  have h10 : 10 < size.toNat := by omega
  obtain rfl : n = size.toNat - 10 := by omega
  rw [← responseWord_ok_ofNat (by omega)]
  exact ⟨fun htag => exec_of_completes (.verify h10 hkey hbuf htag.symm),
    fun htag => exec_of_fails (.verifyTag h10 hkey hbuf (Ne.symm htag))⟩

theorem add_ten_toNat {size : Byte} (h : size.toNat ≤ 245) : (size + 10).toNat = size.toNat + 10 := by
  have hten : (10 : Byte).toNat = 10 := rfl
  rw [BitVec.toNat_add, hten]
  omega

/-- Settles O50: the buffer AUTH leaves is the message and its tag, which VERIFY accepts; a total size of 10 is refused first. -/
theorem authThenVerifyAccepts : Obligations.AuthThenVerifyAccepts := by
  refine ⟨fun s t u size cap bufPtr keyPtr h1 h245 hauth ht hbuf hkeys hkeyOk hbufOk => ?_,
    fun s size cap bufPtr keyPtr hcap hkey hbuf hdst => ?_, fun u bufPtr keyPtr => exec_of_fails (.verifySize (by decide))⟩
  · have htotal := add_ten_toNat h245
    cases completes_of_answer hauth (by omega) ht
    rw [State.respond_mem, State.setMem_mem, Memory.readBytes_add, Memory.readBytes_add, Memory.readBytes_writeBytes_below,
      Memory.readBytes_writeBytes (tag_length _ _)] at hbuf
    obtain ⟨hmsg, htag⟩ := List.append_inj hbuf (by rw [Memory.readBytes_length, Memory.readBytes_length])
    obtain ⟨haccept, -⟩ := verifyAcceptsExactlyTheTag u (size + 10) bufPtr keyPtr size.toNat htotal h1 hkeyOk (by rwa [htotal])
    exact haccept (by rw [htag, hkeys, hmsg])
  · obtain ⟨t, hexec, -, -, hshape⟩ := authCompletes s size cap bufPtr keyPtr hcap hkey hbuf hdst
    exact ⟨t, hexec, congrArg State.rspq hshape⟩

theorem Memory.readBytes_write_outside (m : Memory) {p n a : Nat} (b : Byte) (ha : ¬(p ≤ a ∧ a < p + n)) :
    (m.write a b).readBytes p n = m.readBytes p n :=
  Memory.readBytes_congr fun _ hp hn => Memory.read_write_ne m b fun heq => ha (heq ▸ ⟨hp, hn⟩)

theorem Memory.readBytes_write_inside (m : Memory) {p n a : Nat} {b : Byte} (ha : p ≤ a) (han : a < p + n) (hb : b ≠ m.read a) :
    (m.write a b).readBytes p n ≠ m.readBytes p n := by
  intro heq
  have hread := List.map_inj_left.mp heq (a - p) (List.mem_range.mpr (by omega))
  rw [Nat.add_sub_cancel' ha, Memory.read_write_same] at hread
  exact hb hread

theorem tag_eq_of_completes_verify {s t : State} {size : Byte} {bufPtr keyPtr : Word}
    (h : Completes s (.verify size bufPtr keyPtr) t) :
    readOk s keyPtr.toNat 16 = true ∧ readOk s bufPtr.toNat size.toNat = true ∧
      tag (s.mem.readBytes keyPtr.toNat 16) (s.mem.readBytes bufPtr.toNat (size.toNat - 10)) =
        s.mem.readBytes (bufPtr.toNat + (size.toNat - 10)) 10 := by
  cases h with
  | verify _ hkey hbuf htag => exact ⟨hkey, hbuf, htag⟩

/-- Settles O51: the key and the message keep their tag, and the received bytes change. -/
theorem changedTagByteIsRejected : Obligations.ChangedTagByteIsRejected := by
  intro s size b bufPtr keyPtr a hsize hexec hlo hhi hb hkeyAddr
  have hlt := size.isLt
  obtain ⟨hkey, hbuf, htag⟩ := tag_eq_of_completes_verify (completes_of_answer hexec (by omega) rfl)
  have hkeys := Memory.readBytes_write_outside s.mem b hkeyAddr
  have hmsg : (s.mem.write a b).readBytes bufPtr.toNat (size.toNat - 10) = s.mem.readBytes bufPtr.toNat (size.toNat - 10) :=
    Memory.readBytes_write_outside s.mem b (by omega)
  have hreceived := Memory.readBytes_write_inside (n := 10) s.mem hlo (by omega) hb
  have hfail : Fails (s.hostWrite a b) (.verify size bufPtr keyPtr) .verificationFailed := by
    refine .verifyTag hsize hkey hbuf ?_
    rw [State.hostWrite, State.setMem_mem, hkeys, hmsg, htag]
    exact hreceived.symm
  exact exec_of_fails hfail

/-- Settles O52: 246 and 10 exceed every 8-bit capacity, and 245 and 10 do not exceed 255. -/
theorem usableMessageSizesAreZeroTo245 : Obligations.UsableMessageSizesAreZeroTo245 := by
  refine ⟨fun s size cap bufPtr keyPtr hsize => exec_of_fails (.authCapacity ?_),
    fun s size bufPtr keyPtr hsize hkey hbuf hdst => ?_⟩
  · have hcap := cap.isLt
    omega
  · have hcap : size.toNat + 10 ≤ (255 : Byte).toNat := by
      show size.toNat + 10 ≤ 255
      omega
    obtain ⟨t, hexec, -, -, hshape⟩ := authCompletes s size 255 bufPtr keyPtr hcap hkey hbuf hdst
    exact ⟨t, hexec, congrArg State.rspq hshape⟩

/-! ### The failures after the admission of the ranges -/

theorem fragmentsOk_eq_false_iff (s : State) (frags : List Fragment) :
    fragmentsOk s frags = false ↔ ∃ f ∈ frags, readOk s f.ptr.toNat f.len.toNat = false := by
  simp only [fragmentsOk, List.all_eq_false, Bool.not_eq_true]

/-- Some range of the command's row of table T-R58 is not admitted. -/
def RangeFault (s : State) (i : Instr) : Prop :=
  (∃ r ∈ readRanges i, readOk s r.1 r.2 = false) ∨ ∃ r ∈ writeRanges i, writeOk s r.1 r.2 = false

theorem not_rangeFault_sha1Init (s : State) : ¬RangeFault s .sha1Init := by
  simp [RangeFault, readRanges, writeRanges]

theorem rangeFault_sha1Update_iff (s : State) (srcPtr srcLen : Word) :
    RangeFault s (.sha1Update srcPtr srcLen) ↔ readOk s srcPtr.toNat srcLen.toNat = false := by
  simp [RangeFault, readRanges, writeRanges]

theorem rangeFault_sha1Final_iff (s : State) (dstPtr : Word) :
    RangeFault s (.sha1Final dstPtr) ↔ writeOk s dstPtr.toNat 20 = false := by
  simp [RangeFault, readRanges, writeRanges]

theorem rangeFault_hmac_iff (s : State) (klen : Byte) (msgPtr msgLen keyPtr dstPtr : Word) :
    RangeFault s (.hmac klen msgPtr msgLen keyPtr dstPtr) ↔
      readOk s keyPtr.toNat klen.toNat = false ∨ fragmentsOk s [{ ptr := msgPtr, len := msgLen }] = false ∨
        writeOk s dstPtr.toNat 20 = false := by
  simp [RangeFault, readRanges, writeRanges, fragmentsOk_singleton, or_assoc]

theorem rangeFault_hmacv_iff (s : State) (klen : Byte) (keyPtr dstPtr : Word) (frags : List Fragment) :
    RangeFault s (.hmacv klen keyPtr dstPtr frags) ↔
      readOk s keyPtr.toNat klen.toNat = false ∨ fragmentsOk s frags = false ∨ writeOk s dstPtr.toNat 20 = false := by
  simp [RangeFault, readRanges, writeRanges, fragmentsOk_eq_false_iff, or_assoc]

theorem rangeFault_auth_iff (s : State) (size cap : Byte) (bufPtr keyPtr : Word) :
    RangeFault s (.auth size cap bufPtr keyPtr) ↔
      readOk s keyPtr.toNat 16 = false ∨ readOk s bufPtr.toNat size.toNat = false ∨
        writeOk s (bufPtr.toNat + size.toNat) 10 = false := by
  simp [RangeFault, readRanges, writeRanges, or_assoc]

theorem rangeFault_verify_iff (s : State) (size : Byte) (bufPtr keyPtr : Word) :
    RangeFault s (.verify size bufPtr keyPtr) ↔
      readOk s keyPtr.toNat 16 = false ∨ readOk s bufPtr.toNat size.toNat = false := by
  simp [RangeFault, readRanges, writeRanges]

/-- Settles O57: each command's memory fault, with the conditions that rule R210 puts before it. -/
theorem memFaultExactlyWhen : Obligations.MemFaultExactlyWhen := by
  intro i s
  refine (exec_raises_iff_fails (f := .memFault) (by decide)).trans ⟨fun h => ?_, fun ⟨hearlier, hfault⟩ => ?_⟩
  · cases h with
    | updateFault hphase hsrc => exact ⟨hphase, (rangeFault_sha1Update_iff s _ _).mpr hsrc⟩
    | finalFault hphase hdst => exact ⟨hphase, (rangeFault_sha1Final_iff s _).mpr hdst⟩
    | hmacFault hkey hmem => exact ⟨hkey, (rangeFault_hmac_iff s _ _ _ _ _).mpr hmem⟩
    | hmacvFault hkey hmem => exact ⟨hkey, (rangeFault_hmacv_iff s _ _ _ _).mpr hmem⟩
    | authFault hcap hmem => exact ⟨hcap, (rangeFault_auth_iff s _ _ _ _).mpr hmem⟩
    | verifyFault hsize hmem => exact ⟨hsize, (rangeFault_verify_iff s _ _ _).mpr hmem⟩
  · cases i with
    | sha1Init => exact absurd hfault (not_rangeFault_sha1Init s)
    | sha1Update => exact .updateFault hearlier ((rangeFault_sha1Update_iff s _ _).mp hfault)
    | sha1Final => exact .finalFault hearlier ((rangeFault_sha1Final_iff s _).mp hfault)
    | hmac => exact .hmacFault hearlier ((rangeFault_hmac_iff s _ _ _ _ _).mp hfault)
    | hmacv => exact .hmacvFault hearlier ((rangeFault_hmacv_iff s _ _ _ _).mp hfault)
    | auth => exact .authFault hearlier ((rangeFault_auth_iff s _ _ _ _).mp hfault)
    | verify => exact .verifyFault hearlier ((rangeFault_verify_iff s _ _ _).mp hfault)

/-- Settles O58: the one failure with this status. -/
theorem lengthOverflowExactlyWhen : Obligations.LengthOverflowExactlyWhen := by
  intro i s
  refine (exec_raises_iff_fails (f := .lengthOverflow) (by decide)).trans ⟨fun h => ?_, ?_⟩
  · cases h with
    | updateOverflow hphase hsrc hlen => exact ⟨_, _, rfl, hphase, hsrc, hlen⟩
  · rintro ⟨srcPtr, srcLen, rfl, hphase, hsrc, hlen⟩
    exact .updateOverflow hphase hsrc hlen

end Sys2Proof.Machine
end
